-- ==== Sys2Proof/Word.lean ====
section
/-! DEFINITION. The word of the CORE and the byte of the loader (spec/00_scope.md rule R6). The number 32768 = 2^15 is
the memory size, the first register word and the arithmetic modulus, and is written out where a rule
writes it (R7). -/

namespace Sys2Proof

/-- `WORD_BITS` = 16: one memory cell, register, stack element, pc, opcode word or operand word (R6). -/
abbrev Word := BitVec 16

/-- One byte of a binary program source; bytes exist only at the loader boundary (R39). -/
abbrev Byte := BitVec 8

end Sys2Proof
end

