-- ==== Sys2Proof/Syntax.lean ====
section
/-! DEFINITION. The syntax of the 22 instructions (spec/30_encoding.md rules R51, R56). An operand is a
raw operand word sorted into its class; which operand is a destination and which a value is decided by
the instruction (R57), not by the class, so every instruction takes operands of every class. -/

namespace Sys2Proof

/-- The index of one of the eight registers r0..r7 (R17). -/
abbrev RegIdx := Fin 8

/-- A raw operand word, in one of the three classes of R51.
`lit v`: a literal, below 32768. `reg r`: the word 32768 + r. `invalid w`: a word 32776..65535. -/
inductive Operand where
  | lit (v : Word)
  | reg (r : RegIdx)
  | invalid (w : Word)
deriving DecidableEq, Repr

/-- The closed set of 22 instructions, in the order of their opcodes 0..21, operands in fetch order (R56).
`input` is the spec's `in`. -/
inductive Instr where
  | halt
  | set (dst val : Operand)
  | push (val : Operand)
  | pop (dst : Operand)
  | eq (dst a b : Operand)
  | gt (dst a b : Operand)
  | jmp (target : Operand)
  | jt (cond target : Operand)
  | jf (cond target : Operand)
  | add (dst a b : Operand)
  | mult (dst a b : Operand)
  | mod (dst a b : Operand)
  | and (dst a b : Operand)
  | or (dst a b : Operand)
  | not (dst a : Operand)
  | rmem (dst addr : Operand)
  | wmem (addr val : Operand)
  | call (target : Operand)
  | ret
  | out (val : Operand)
  | input (dst : Operand)
  | noop
deriving DecidableEq, Repr

/-- The operands of an instruction in fetch order (R53). -/
def Instr.operands : Instr → List Operand
  | .halt | .ret | .noop => []
  | .push o | .pop o | .jmp o | .call o | .out o | .input o => [o]
  | .set o p | .jt o p | .jf o p | .not o p | .rmem o p | .wmem o p => [o, p]
  | .eq o p q | .gt o p q | .add o p q | .mult o p q | .mod o p q | .and o p q | .or o p q => [o, p, q]

end Sys2Proof
end

