-- ==== Sys2Proof/WellFormed.lean ====
section
/-! DEFINITION. A well-formed instruction: every operand stands in the class its word belongs to
(spec/30_encoding.md rule R51). These are exactly the instructions that memory can hold; an operand of
the wrong class for its role (a literal destination, an invalid word) is well formed, and faults when it
is resolved (R59, R64). -/

namespace Sys2Proof

/-- A literal is below 32768 and an invalid word is 32776 or more (R51). -/
def Operand.wf : Operand → Bool
  | .lit v => v.toNat < 32768
  | .reg _ => true
  | .invalid w => 32776 ≤ w.toNat

/-- Every operand is well formed. -/
def Instr.wf (i : Instr) : Bool := i.operands.all Operand.wf

end Sys2Proof
end

