-- ==== Sys2Proof/Decode.lean ====
section
/-! DEFINITION. From words to instructions and back (spec/30_encoding.md rules R51 to R58, R64). An
instruction is an opcode word and then as many whole operand words as the opcode's arity. Decoding is
total: it answers an instruction with the words left over, or rejects by name. -/

namespace Sys2Proof

/-- The class of a raw operand word (R51). -/
def decodeOperand (w : Word) : Operand :=
  if w.toNat < 32768 then .lit w
  else if h : w.toNat - 32768 < 8 then .reg ⟨w.toNat - 32768, h⟩
  else .invalid w

/-- The arity of an opcode, `none` for a word that is no opcode (R56, R58). -/
def opcodeArity (code : Nat) : Option Nat :=
  match code with
  | 0 => some 0
  | 1 => some 2
  | 2 => some 1
  | 3 => some 1
  | 4 => some 3
  | 5 => some 3
  | 6 => some 1
  | 7 => some 2
  | 8 => some 2
  | 9 => some 3
  | 10 => some 3
  | 11 => some 3
  | 12 => some 3
  | 13 => some 3
  | 14 => some 2
  | 15 => some 2
  | 16 => some 2
  | 17 => some 1
  | 18 => some 0
  | 19 => some 1
  | 20 => some 1
  | 21 => some 0
  | _ => none

/-- The instruction of an opcode and its operand words (R53, R56); operand words past the opcode's
arity are not looked at. -/
def decodeInstr (code : Nat) (w1 w2 w3 : Word) : Option Instr :=
  match code with
  | 0 => some .halt
  | 1 => some (.set (decodeOperand w1) (decodeOperand w2))
  | 2 => some (.push (decodeOperand w1))
  | 3 => some (.pop (decodeOperand w1))
  | 4 => some (.eq (decodeOperand w1) (decodeOperand w2) (decodeOperand w3))
  | 5 => some (.gt (decodeOperand w1) (decodeOperand w2) (decodeOperand w3))
  | 6 => some (.jmp (decodeOperand w1))
  | 7 => some (.jt (decodeOperand w1) (decodeOperand w2))
  | 8 => some (.jf (decodeOperand w1) (decodeOperand w2))
  | 9 => some (.add (decodeOperand w1) (decodeOperand w2) (decodeOperand w3))
  | 10 => some (.mult (decodeOperand w1) (decodeOperand w2) (decodeOperand w3))
  | 11 => some (.mod (decodeOperand w1) (decodeOperand w2) (decodeOperand w3))
  | 12 => some (.and (decodeOperand w1) (decodeOperand w2) (decodeOperand w3))
  | 13 => some (.or (decodeOperand w1) (decodeOperand w2) (decodeOperand w3))
  | 14 => some (.not (decodeOperand w1) (decodeOperand w2))
  | 15 => some (.rmem (decodeOperand w1) (decodeOperand w2))
  | 16 => some (.wmem (decodeOperand w1) (decodeOperand w2))
  | 17 => some (.call (decodeOperand w1))
  | 18 => some .ret
  | 19 => some (.out (decodeOperand w1))
  | 20 => some (.input (decodeOperand w1))
  | 21 => some .noop
  | _ => none

/-- What decoding answers (R64): an instruction and the words after it, an opcode word that is none of
the 22 (R58), or words that end before the instruction does. -/
inductive Decoded where
  | instr (i : Instr) (rest : List Word)
  | invalidOpcode (w : Word)
  | outOfWords
deriving DecidableEq, Repr

/-- Decode the instruction at the head of a list of words, in the order of R64: the opcode word, its
being one of the 22, then its operand words. -/
def decode (ws : List Word) : Decoded :=
  match ws with
  | [] => .outOfWords
  | op :: rest =>
    match opcodeArity op.toNat with
    | none => .invalidOpcode op
    | some n =>
      if rest.length < n then .outOfWords
      else
        match decodeInstr op.toNat (rest.getD 0 0#16) (rest.getD 1 0#16) (rest.getD 2 0#16) with
        | none => .invalidOpcode op
        | some i => .instr i (rest.drop n)

/-- The raw word of an operand (R51). -/
def encodeOperand : Operand → Word
  | .lit v => v
  | .reg r => BitVec.ofNat 16 (32768 + r.val)
  | .invalid w => w

/-- The opcode of an instruction (R56). -/
def Instr.opcode : Instr → Nat
  | .halt => 0
  | .set _ _ => 1
  | .push _ => 2
  | .pop _ => 3
  | .eq _ _ _ => 4
  | .gt _ _ _ => 5
  | .jmp _ => 6
  | .jt _ _ => 7
  | .jf _ _ => 8
  | .add _ _ _ => 9
  | .mult _ _ _ => 10
  | .mod _ _ _ => 11
  | .and _ _ _ => 12
  | .or _ _ _ => 13
  | .not _ _ => 14
  | .rmem _ _ => 15
  | .wmem _ _ => 16
  | .call _ => 17
  | .ret => 18
  | .out _ => 19
  | .input _ => 20
  | .noop => 21

/-- The opcode word of an instruction. -/
def Instr.opcodeWord (i : Instr) : Word := BitVec.ofNat 16 i.opcode

/-- How many operand words an instruction has (R53). -/
def Instr.arity (i : Instr) : Nat := i.operands.length

/-- The words of an instruction: its opcode word, then its operand words in order (R53). -/
def encode (i : Instr) : List Word := i.opcodeWord :: i.operands.map encodeOperand

/-- The four words of a table word: bits 15..0 first, the bits from `nbits` on being 0. -/
def tableWords (nbits w : Nat) : List Word :=
  let v := w % 2 ^ nbits
  [BitVec.ofNat 16 v, BitVec.ofNat 16 (v / 2 ^ 16), BitVec.ofNat 16 (v / 2 ^ 32),
    BitVec.ofNat 16 (v / 2 ^ 48)]

/-- The instruction the decoder reads from a word numbered as spec/opcode_table.json numbers it: bit 0 is
the least significant bit of the opcode word, and operand words of zeros follow. -/
def decodeTableWord (nbits w : Nat) : Option Instr :=
  match decode (tableWords nbits w) with
  | .instr i _ => some i
  | .invalidOpcode _ => none
  | .outOfWords => none

end Sys2Proof
end

