-- ==== Sys2Proof/Config.lean ====
section
/-! DEFINITION. What an implementation fixes: the open parameter `STACK_CAPACITY` and the constant
`LINE_TERMINATOR` (spec/00_scope.md rule R6). The spec leaves no value undefined, so there is no free
value here; the one open parameter is plain data that a state carries and no step changes, so a claim
about every state is a claim about every capacity. -/

namespace Sys2Proof

/-- The parameters of one implementation.
`stackCapacity`: `STACK_CAPACITY` of R6 and R21, `none` for the source's unbounded stack, `some N` for a
stack that holds at most N words. -/
structure Config where
  stackCapacity : Option Nat
deriving DecidableEq, Repr

/-- A bounded capacity is a positive number (R21: "unbounded, or a positive natural number N"). -/
def Config.wf (c : Config) : Bool :=
  match c.stackCapacity with
  | none => true
  | some n => 0 < n

/-- The source's own machine: the stack is unbounded (R21; 92_eei_decisions.md D4).
DESIGN CHOICE: log entry 2. -/
def Config.unbounded : Config := { stackCapacity := none }

/-- `LINE_TERMINATOR` = 10, the code the terminal delivers after each input line (R6, R80, D10). -/
def Config.lineTerminator : Word := 10#16

end Sys2Proof
end

