-- ==== Sys2Proof/Machine/State.lean ====
section
/-! DEFINITION. The complete state of the CORE (spec/10_state.md), the host's and the terminal's side of
its interface (spec/00_scope.md rule R12), and the state after reset (R35, R125). Plain data. -/

namespace Sys2Proof.Machine

/-- One memory cell that does not hold 0: its address and its 16-bit word. Memory is addressed by whole
words and has no bytes inside the CORE (R36, R39). DESIGN CHOICE: log entry 1. -/
abbrev Cell := Nat × Word

/-- `MEM`: the cells that do not hold 0, at strictly rising addresses below 32768. A cell that is not
listed reads 0, its reset value (R16). -/
abbrev Memory := List Cell

/-- The four values of `RUN_STATE` (R26). -/
inductive RunState where
  | idle
  | running
  | waitInput
  | halted
deriving DecidableEq, Repr

/-- The fatal errors of R109, in the order of their codes 1..8 (R110). They are not outcomes of the
model's step: a step that meets one TAKES it, a next state as R76 describes. -/
inductive FatalError where
  | invalidOpcode
  | invalidOperand
  | invalidRegisterTarget
  | stackUnderflow
  | divisionByZero
  | fetchOutOfRange
  | memoryAddressOutOfRange
  | stackOverflow
deriving DecidableEq, Repr

/-- The latches a step fills while it fetches (R32, R76): the opcode word, whether the opcode fetch of
this step succeeded, and the raw operand words. They do not survive the step. -/
structure Latches where
  op : Word
  opFetched : Bool
  w1 : Word
  w2 : Word
  w3 : Word
deriving DecidableEq, Repr

/-- The latches at reset and at every step boundary (R32: "Reset value of every latch: 0"). -/
def Latches.clear : Latches := { op := 0#16, opFetched := false, w1 := 0#16, w2 := 0#16, w3 := 0#16 }

/-- The machine.

State of the CORE:
* `mem`: the 32768 cells (R16); `regs`: x[0..7] (R17); `stack`: the LIFO, its top first (R20);
* `pc` (R23); `insnPc`: the latch INSN_PC (R25); `runState` (R26); `halted`: the flag HALTED (R27);
* `errCode`, `errPc`, `errOpcode`, `errOpcodeValid`, `stopped`: the status fields (R29);
* `latch`: the latches of the step (R32); `inDest`: the destination register of a waiting `in` (R32, R83).

The outside of the CORE (R12, R77), held here so that a step is a function of the state:
* `stopRequest`: the level of the host's stop request (R68);
* `termIn`: the codes the terminal has available and no `in` has taken, oldest first (R80);
* `termOut`: the codes the CORE has passed to the terminal, oldest first (R79, R131);
* `cfg`: the implementation's parameters (R6), which nothing changes. -/
structure State where
  mem : Memory
  regs : Vector Word 8
  stack : List Word
  pc : Word
  insnPc : Word
  runState : RunState
  halted : Bool
  errCode : BitVec 4
  errPc : Word
  errOpcode : Word
  errOpcodeValid : Bool
  stopped : Bool
  latch : Latches
  inDest : RegIdx
  stopRequest : Bool
  termIn : List Word
  termOut : List Word
  cfg : Config
deriving DecidableEq, Repr

/-- A fault of the model's step. There is none: every error of this hardware is a fatal error that the
spec describes whole (R76), so it is a next state, and no step ends in a fault. Safe. -/
inductive Fault where
deriving DecidableEq, Repr

/-- A refusal of the model's step.
`notModelled`: raised only by an arm of `exec` whose instruction has no meaning yet; safe. No arm does. -/
inductive Refusal where
  | notModelled (mnemonic : String)
deriving DecidableEq, Repr

/-- The machine right after reset (R35, R125) of an implementation with the given parameters: nothing is
loaded, the CORE is idle, the host asserts no stop request, the terminal has no code available and has
been passed none (the last three are no state of the CORE; log entry 3). -/
def State.resetWith (cfg : Config) : State where
  mem := []
  regs := Vector.replicate 8 0#16
  stack := []
  pc := 0#16
  insnPc := 0#16
  runState := .idle
  halted := true
  errCode := 0#4
  errPc := 0#16
  errOpcode := 0#16
  errOpcodeValid := false
  stopped := false
  latch := Latches.clear
  inDest := 0
  stopRequest := false
  termIn := []
  termOut := []
  cfg := cfg

/-- The machine right after reset, with the source's unbounded stack (log entry 2). -/
def State.reset : State := State.resetWith Config.unbounded

end Sys2Proof.Machine
end

