-- ==== Sys2Proof/Machine/Flags.lean ====
section
/-! DEFINITION. The one flag of the CORE, `HALTED` (spec/10_state.md rules R27, R28). There are no condition
codes: no instruction writes a carry, overflow, zero or sign flag, and none reads a flag. -/

namespace Sys2Proof.Machine

/-- The run ends: `HALTED <- 1; RUN_STATE <- HALTED` (R68, R76, R81). -/
def State.haltRun (s : State) : State := { s with halted := true, runState := .halted }

/-- The run begins: `HALTED <- 0; RUN_STATE <- RUNNING` (R129). -/
def State.startRun (s : State) : State := { s with halted := false, runState := .running }

/-- The effect of an honoured stop request: the run ends and `STOPPED <- 1` (R68). -/
def State.stopRun (s : State) : State := { s.haltRun with stopped := true }

end Sys2Proof.Machine
end

