-- ==== Sys2Proof/Machine/Ops.lean ====
section
/-! DEFINITION. The named operations over memory, registers, stack and terminal, and taking a fatal error
(spec/00_scope.md rule R10; spec/20_memory.md; spec/40_execution_cycle.md rule R76). -/

namespace Sys2Proof.Machine

/-! ### Memory -/

/-- The word at an address: a cell that is not listed holds 0 (R16, R36). -/
def Memory.read : Memory → Nat → Word
  | [], _ => 0#16
  | (k, v) :: rest, a => if k = a then v else Memory.read rest a

/-- Put a word at an address and change no other cell (R36), keeping the canonical form: the list stays
sorted and a cell that comes to hold 0 is not listed. -/
def Memory.write : Memory → Nat → Word → Memory
  | [], a, v => if v = 0#16 then [] else [(a, v)]
  | (k, w) :: rest, a, v =>
    if a < k then (if v = 0#16 then (k, w) :: rest else (a, v) :: (k, w) :: rest)
    else if a = k then (if v = 0#16 then rest else (a, v) :: rest)
    else (k, w) :: Memory.write rest a v

/-- Every listed address is at least `lo` and below 32768, addresses rise strictly, no listed word is 0. -/
def Memory.wfFrom : Nat → Memory → Bool
  | _, [] => true
  | lo, (k, v) :: rest => decide (lo ≤ k) && decide (k < 32768) && decide (v ≠ 0#16) && Memory.wfFrom (k + 1) rest

/-- The canonical form of memory: equal memories are equal lists. -/
def Memory.wf (m : Memory) : Bool := Memory.wfFrom 0 m

/-- Put words at consecutive addresses from `a` on. -/
def Memory.writeAll : Memory → Nat → List Word → Memory
  | m, _, [] => m
  | m, a, w :: ws => Memory.writeAll (Memory.write m a w) (a + 1) ws

/-- `MemRead(a, 1)` (R10, R36), for an address that names a cell. -/
def State.memRead (s : State) (a : Nat) : Word := Memory.read s.mem a

/-- `MemWrite(a, 1, v)` (R10, R36), for an address that names a cell. -/
def State.memWrite (s : State) (a : Nat) (v : Word) : State := { s with mem := Memory.write s.mem a v }

/-! ### Registers, pc, stack, terminal -/

/-- `x[i]` (R10). No register is hardwired (R17). -/
def State.reg (s : State) (r : RegIdx) : Word := s.regs[r.val]

/-- `x[i] <- v` (R10): the whole word, unmasked (R18). -/
def State.setReg (s : State) (r : RegIdx) (v : Word) : State := { s with regs := s.regs.set r.val v }

/-- `pc <- t` (R10). -/
def State.setPc (s : State) (t : Word) : State := { s with pc := t }

/-- `StackPush(v)` (R20). -/
def State.stackPush (s : State) (v : Word) : State := { s with stack := v :: s.stack }

/-- Replace the stack, as a pop does (R20). -/
def State.setStack (s : State) (st : List Word) : State := { s with stack := st }

/-- The stack holds `STACK_CAPACITY` words (R21, R86: "if STACK_CAPACITY is a number N and depth = N"). -/
def State.stackFull (s : State) : Bool :=
  match s.cfg.stackCapacity with
  | none => false
  | some n => s.stack.length = n

/-- `TermOut(c)` (R79): one code, unchanged, in execution order. -/
def State.termWrite (s : State) (c : Word) : State := { s with termOut := s.termOut ++ [c] }

/-! ### A fatal error -/

/-- The code recorded in `ERR_CODE` (R110). -/
def FatalError.code : FatalError → BitVec 4
  | .invalidOpcode => 1#4
  | .invalidOperand => 2#4
  | .invalidRegisterTarget => 3#4
  | .stackUnderflow => 4#4
  | .divisionByZero => 5#4
  | .fetchOutOfRange => 6#4
  | .memoryAddressOutOfRange => 7#4
  | .stackOverflow => 8#4

/-- `raise E` (R76, R112): the pc goes back to INSN_PC, the error, its pc and its opcode word (if it was
fetched) are recorded, and the run ends. Nothing else changes. -/
def State.raise (s : State) (e : FatalError) : State :=
  { s.haltRun with
    pc := s.insnPc
    errCode := e.code
    errPc := s.insnPc
    errOpcode := if s.latch.opFetched then s.latch.op else 0#16
    errOpcodeValid := s.latch.opFetched }

/-! ### The wait of `in` -/

/-- `in` asks for a code: `RUN_STATE <- WAIT_INPUT`, and the destination register is latched (R83). -/
def State.beginWait (s : State) (d : RegIdx) : State := { s with runState := .waitInput, inDest := d }

/-- `TermIn()` has completed with code c, the terminal's remaining codes being `rest`: the latched register is
written and `RUN_STATE <- RUNNING` (R83); the latch of the destination survives until then (R32). -/
def State.takeInput (s : State) (c : Word) (rest : List Word) : State :=
  { s.setReg s.inDest c with termIn := rest, runState := .running, inDest := 0 }

/-- `TermIn()` completes if the terminal has a code: the oldest one is taken; otherwise the CORE goes on
waiting (R80, R83). -/
def State.tryInput (s : State) : State :=
  match s.termIn with
  | [] => s
  | c :: rest => s.takeInput c rest

end Sys2Proof.Machine
end

