-- ==== Sys2Proof/Machine/Operands.lean ====
section
/-! DEFINITION. The operand resolver (spec/30_encoding.md rules R60 to R63) and the checks an instruction
makes of its own (spec/60_exceptions.md rule R113 item 6). Each shared form either goes on with what it
resolved or takes the fatal error, before any effect (R76). -/

namespace Sys2Proof.Machine

/-- What a meaning answers. -/
abbrev Answer := Host.Outcome State Fault Refusal

/-- `value(w)` (R60): a literal is itself, a register gives its current content, any other word has no
value. -/
def State.value (s : State) (o : Operand) : Option Word :=
  match o with
  | .lit v => some v
  | .reg r => some (s.reg r)
  | .invalid _ => none

/-- `dest(w)` (R61): only a register word denotes a destination. -/
def destOf (o : Operand) : Option RegIdx :=
  match o with
  | .lit _ => none
  | .reg r => some r
  | .invalid _ => none

/-- End the step with a fatal error. -/
def fatal (e : FatalError) (s : State) : Answer := .next (s.raise e)

/-- Resolve an operand in a value position (R60) and go on with its value. -/
def withValue (o : Operand) (s : State) (k : Word → Answer) : Answer :=
  match s.value o with
  | none => fatal .invalidOperand s
  | some v => k v

/-- Resolve an operand in a destination position (R61) and go on with the register it names. -/
def withDest (o : Operand) (s : State) (k : RegIdx → Answer) : Answer :=
  match destOf o with
  | none => fatal .invalidRegisterTarget s
  | some d => k d

/-- Go on with an effective address that names a cell (R106). -/
def withAddress (ea : Word) (s : State) (k : Nat → Answer) : Answer :=
  if 32768 ≤ ea.toNat then fatal .memoryAddressOutOfRange s else k ea.toNat

/-- Go on if the stack has room for one more word (R21). -/
def withRoom (s : State) (k : Answer) : Answer :=
  if s.stackFull then fatal .stackOverflow s else k

/-- `StackPop()` (R20, R22): go on with the top word and the state without it. -/
def withPop (s : State) (k : Word → State → Answer) : Answer :=
  match s.stack with
  | [] => fatal .stackUnderflow s
  | v :: rest => k v (s.setStack rest)

/-- The shape of every instruction that writes a function of two values to a register (spec/43_alu.md). -/
def writeBinary (f : Word → Word → Word) (dst a b : Operand) (s : State) : Answer :=
  withDest dst s fun d => withValue a s fun va => withValue b s fun vb => .next (s.setReg d (f va vb))

/-- The shape of every instruction that writes a function of one value to a register. -/
def writeUnary (f : Word → Word) (dst a : Operand) (s : State) : Answer :=
  withDest dst s fun d => withValue a s fun va => .next (s.setReg d (f va))

/-- The shape of `jt` and `jf` (R102, R103): both operands are resolved whatever the condition. -/
def jumpWhen (taken : Word → Bool) (cond target : Operand) (s : State) : Answer :=
  withValue cond s fun c => withValue target s fun t => .next (if taken c then s.setPc t else s)

end Sys2Proof.Machine
end

