-- ==== Sys2Proof/Machine/Alu.lean ====
section
/-! DEFINITION. Comparison, arithmetic and logic (spec/43_alu.md rules R88 to R97): `eq`, `gt`, `add`, `mult`,
`mod`, `and`, `or`, `not`. Results are computed on exact natural numbers and narrowed as the rule says. -/

namespace Sys2Proof.Machine

/-- R90: the whole 16-bit values are compared. -/
def aluEq (va vb : Word) : Word := if va = vb then 1#16 else 0#16

/-- R91: unsigned and strict. -/
def aluGt (va vb : Word) : Word := if va.toNat > vb.toNat then 1#16 else 0#16

/-- R92: the exact sum modulo 32768. -/
def aluAdd (va vb : Word) : Word := BitVec.ofNat 16 ((va.toNat + vb.toNat) % 32768)

/-- R93: the exact product modulo 32768. -/
def aluMult (va vb : Word) : Word := BitVec.ofNat 16 ((va.toNat * vb.toNat) % 32768)

/-- R94: the remainder of natural division, not reduced further; the divisor is not 0. -/
def aluMod (va vb : Word) : Word := BitVec.ofNat 16 (va.toNat % vb.toNat)

/-- R95: 16-bit bitwise and, no masking. -/
def aluAnd (va vb : Word) : Word := va &&& vb

/-- R96: 16-bit bitwise or, no masking. -/
def aluOr (va vb : Word) : Word := va ||| vb

/-- R97: the 16-bit complement masked to its low 15 bits. -/
def aluNot (va : Word) : Word := ~~~va &&& 32767#16

/-- `eq dst a b` (R90). -/
def execEq (dst a b : Operand) (s : State) : Answer := writeBinary aluEq dst a b s

/-- `gt dst a b` (R91). -/
def execGt (dst a b : Operand) (s : State) : Answer := writeBinary aluGt dst a b s

/-- `add dst a b` (R92). -/
def execAdd (dst a b : Operand) (s : State) : Answer := writeBinary aluAdd dst a b s

/-- `mult dst a b` (R93). -/
def execMult (dst a b : Operand) (s : State) : Answer := writeBinary aluMult dst a b s

/-- `mod dst a b` (R94): the zero divisor is tested after all three operands are resolved. -/
def execMod (dst a b : Operand) (s : State) : Answer :=
  withDest dst s fun d => withValue a s fun va => withValue b s fun vb =>
    if vb = 0#16 then fatal .divisionByZero s else .next (s.setReg d (aluMod va vb))

/-- `and dst a b` (R95). -/
def execAnd (dst a b : Operand) (s : State) : Answer := writeBinary aluAnd dst a b s

/-- `or dst a b` (R96). -/
def execOr (dst a b : Operand) (s : State) : Answer := writeBinary aluOr dst a b s

/-- `not dst a` (R97). -/
def execNot (dst a : Operand) (s : State) : Answer := writeUnary aluNot dst a s

end Sys2Proof.Machine
end

