-- ==== Sys2Proof/Machine/Control.lean ====
section
/-! DEFINITION. Control transfer (spec/44_control_transfer.md): `jmp`, `jt`, `jf`, `call`, `ret`. On entry the
pc is the address after the instruction's last word, and any 16-bit target may be written to it (R99). -/

namespace Sys2Proof.Machine

/-- `jmp target` (R101). -/
def execJmp (target : Operand) (s : State) : Answer := withValue target s fun t => .next (s.setPc t)

/-- `jt cond target` (R102): any nonzero value is true. -/
def execJt (cond target : Operand) (s : State) : Answer := jumpWhen (fun c => c ≠ 0#16) cond target s

/-- `jf cond target` (R103). -/
def execJf (cond target : Operand) (s : State) : Answer := jumpWhen (fun c => c = 0#16) cond target s

/-- `call target` (R104): the address after the operand is pushed. -/
def execCall (target : Operand) (s : State) : Answer :=
  withValue target s fun t => withRoom s (.next ((s.stackPush s.pc).setPc t))

/-- `ret` (R105; `StackUnderflow` on an empty stack, 90_conflicts.md C1). -/
def execRet (s : State) : Answer := withPop s fun v s' => .next (s'.setPc v)

end Sys2Proof.Machine
end

