-- ==== Sys2Proof/Machine/MemoryAccess.lean ====
section
/-! DEFINITION. Memory access (spec/45_memory_access.md): `rmem`, `wmem`. The effective address is the value of
the `addr` operand (R106). -/

namespace Sys2Proof.Machine

/-- `rmem dst addr` (R107): the whole word, verbatim. -/
def execRmem (dst addr : Operand) (s : State) : Answer :=
  withDest dst s fun d => withValue addr s fun ea => withAddress ea s fun a =>
    .next (s.setReg d (s.memRead a))

/-- `wmem addr val` (R108): both operands are values; both are resolved before the address is tested. -/
def execWmem (addr val : Operand) (s : State) : Answer :=
  withValue addr s fun ea => withValue val s fun v => withAddress ea s fun a => .next (s.memWrite a v)

end Sys2Proof.Machine
end

