-- ==== Sys2Proof/Machine/RegisterStack.lean ====
section
/-! DEFINITION. Register and stack instructions (spec/42_register_stack.md): `set`, `push`, `pop`. -/

namespace Sys2Proof.Machine

/-- `set dst val` (R85): the whole value is copied. -/
def execSet (dst val : Operand) (s : State) : Answer := writeUnary (fun v => v) dst val s

/-- `push val` (R86): the operand is resolved before the depth is tested. -/
def execPush (val : Operand) (s : State) : Answer :=
  withValue val s fun v => withRoom s (.next (s.stackPush v))

/-- `pop dst` (R87): the destination is resolved before the depth is tested. -/
def execPop (dst : Operand) (s : State) : Answer :=
  withDest dst s fun d => withPop s fun v s' => .next (s'.setReg d v)

end Sys2Proof.Machine
end

