-- ==== Sys2Proof/Machine/SystemIo.lean ====
section
/-! DEFINITION. System and terminal instructions (spec/41_system_io.md): `halt`, `out`, `in`, `noop`. -/

namespace Sys2Proof.Machine

/-- `halt` (R81): the pc keeps its advanced value; `ERR_CODE` and `STOPPED` are not written. -/
def execHalt (s : State) : Answer := .next s.haltRun

/-- `out val` (R82). -/
def execOut (val : Operand) (s : State) : Answer := withValue val s fun c => .next (s.termWrite c)

/-- `in dst` (R83): the destination is resolved before input is asked for; a code that is available at once
completes the instruction within its step, otherwise the CORE waits in `WAIT_INPUT`. -/
def execInput (dst : Operand) (s : State) : Answer :=
  withDest dst s fun d => .next (s.beginWait d).tryInput

/-- `noop` (R84). -/
def execNoop (s : State) : Answer := .next s

end Sys2Proof.Machine
end

