-- ==== Sys2Proof/Machine/Dispatch.lean ====
section
/-! DEFINITION. Phases 3 and 4 of a step (spec/40_execution_cycle.md rules R71, R72): one arm per instruction.
On entry the instruction's words are fetched: the pc is INSN_PC + 1 + arity. -/

namespace Sys2Proof.Machine

def exec (i : Instr) (s : State) : Host.Outcome State Fault Refusal :=
  match i with
  | .halt => Sys2Proof.Machine.execHalt s
  | .set dst val => Sys2Proof.Machine.execSet dst val s
  | .push val => Sys2Proof.Machine.execPush val s
  | .pop dst => Sys2Proof.Machine.execPop dst s
  | .eq dst a b => Sys2Proof.Machine.execEq dst a b s
  | .gt dst a b => Sys2Proof.Machine.execGt dst a b s
  | .jmp target => Sys2Proof.Machine.execJmp target s
  | .jt cond target => Sys2Proof.Machine.execJt cond target s
  | .jf cond target => Sys2Proof.Machine.execJf cond target s
  | .add dst a b => Sys2Proof.Machine.execAdd dst a b s
  | .mult dst a b => Sys2Proof.Machine.execMult dst a b s
  | .mod dst a b => Sys2Proof.Machine.execMod dst a b s
  | .and dst a b => Sys2Proof.Machine.execAnd dst a b s
  | .or dst a b => Sys2Proof.Machine.execOr dst a b s
  | .not dst a => Sys2Proof.Machine.execNot dst a s
  | .rmem dst addr => Sys2Proof.Machine.execRmem dst addr s
  | .wmem addr val => Sys2Proof.Machine.execWmem addr val s
  | .call target => Sys2Proof.Machine.execCall target s
  | .ret => Sys2Proof.Machine.execRet s
  | .out val => Sys2Proof.Machine.execOut val s
  | .input dst => Sys2Proof.Machine.execInput dst s
  | .noop => Sys2Proof.Machine.execNoop s

end Sys2Proof.Machine
end

