-- ==== Sys2Proof/Machine/Fetch.lean ====
section
/-! DEFINITION. Phases 1 and 2 of a step (spec/40_execution_cycle.md rules R69, R70, R74, R75), the end of a
step, and decoding at an address of memory (spec/30_encoding.md rule R64). -/

namespace Sys2Proof.Machine

/-- `INSN_PC <- pc` (R25, R69), with the latches of an earlier step gone (R32). -/
def State.beginStep (s : State) : State := { s with insnPc := s.pc, latch := Latches.clear }

/-- The latches do not survive the step (R32). DESIGN CHOICE: log entry 5 (they are cleared). -/
def State.endStep (s : State) : State := { s with latch := Latches.clear }

/-- End a step. -/
def finish : Answer → Answer
  | .next s => .next s.endStep
  | .fault f => .fault f
  | .refused r => .refused r

/-- Fetch the word at `pc` and advance `pc` by 1; `none` if `pc` names no cell (R69, R70, R74). -/
def State.fetchWord (s : State) : Option (Word × State) :=
  if 32768 ≤ s.pc.toNat then none else some (s.memRead s.pc.toNat, s.setPc (s.pc + 1#16))

/-- Latch the opcode word. -/
def State.latchOpcode (s : State) (op : Word) : State :=
  { s with latch := { s.latch with op := op, opFetched := true } }

/-- Latch operand word k (R53: k = 1..3). -/
def State.latchOperand (s : State) (k : Nat) (w : Word) : State :=
  match k with
  | 1 => { s with latch := { s.latch with w1 := w } }
  | 2 => { s with latch := { s.latch with w2 := w } }
  | 3 => { s with latch := { s.latch with w3 := w } }
  | _ => s

/-- Fetch n operand words into the latches k, k+1, ..; the flag says whether every fetch found a cell (R70).
If one does not, the state is that of the failed fetch. -/
def State.fetchOperands (s : State) (k : Nat) : Nat → State × Bool
  | 0 => (s, true)
  | n + 1 =>
    match s.fetchWord with
    | none => (s, false)
    | some (w, s') => (s'.latchOperand k w).fetchOperands (k + 1) n

/-- One step in `RUNNING` with no stop request (R75): the checks in the order of R113, and then the
instruction's own rule, `Execute(op, w[1..n])`. -/
def State.cycle (s : State) : Answer :=
  match s.beginStep.fetchWord with
  | none => fatal .fetchOutOfRange s.beginStep
  | some (op, s1) =>
    let s2 := s1.latchOpcode op
    match opcodeArity op.toNat with
    | none => fatal .invalidOpcode s2
    | some n =>
      match s2.fetchOperands 1 n with
      | (s3, false) => fatal .fetchOutOfRange s3
      | (s3, true) =>
        match decodeInstr s3.latch.op.toNat s3.latch.w1 s3.latch.w2 s3.latch.w3 with
        | none => fatal .invalidOpcode s3
        | some i => exec i s3

/-- The memory words at p, p + 1, .., at most four of them, as far as memory reaches. -/
def wordsAt (m : Memory) (p : Nat) : List Word :=
  ((List.range 4).filter (fun k => p + k < 32768)).map (fun k => Memory.read m (p + k))

/-- `decode(p)` (R64): `outOfWords` is its `FetchOutOfRange`. -/
def decodeAt (m : Memory) (p : Nat) : Decoded := decode (wordsAt m p)

/-- The state in which an instruction executes: its words are fetched and latched, `INSN_PC` is its address,
and `pc` the address after it (R73). -/
def State.fetched (s : State) (i : Instr) : State :=
  let ws := i.operands.map encodeOperand
  { s with
    pc := s.pc + BitVec.ofNat 16 (1 + i.arity)
    insnPc := s.pc
    latch := { op := i.opcodeWord, opFetched := true, w1 := ws.getD 0 0#16, w2 := ws.getD 1 0#16, w3 := ws.getD 2 0#16 } }

/-- The address at which `State.withFetchWord` stores an instruction: where `pc` points, or 0 if four words
do not fit there. -/
def State.placeAt (s : State) : Nat := if s.pc.toNat + 4 ≤ 32768 then s.pc.toNat else 0

end Sys2Proof.Machine
end

