-- ==== Sys2Proof/Machine/Step.lean ====
section
/-! DEFINITION. One step of the CORE (spec/40_execution_cycle.md), and the placing of one instruction where the
next step fetches it. -/

namespace Sys2Proof.Machine

/-- One step (R66, R68, R75): in `IDLE` and `HALTED` the CORE takes no step, so nothing changes (log entry 4);
in `WAIT_INPUT` its only step is the completion of the waiting `in` (R83); in `RUNNING` it samples the stop
request and then executes one instruction. -/
def step (s : State) : Host.Outcome State Fault Refusal :=
  match s.runState with
  | .idle => .next s
  | .halted => .next s
  | .waitInput => .next s.tryInput
  | .running => if s.stopRequest then .next s.stopRun else finish s.cycle

/-- The state with one instruction stored where `step` fetches next, and the CORE running with no stop
request, so that the next step runs that instruction (log entry 6). -/
def State.withFetchWord (s : State) (nbits w : Nat) : State :=
  { s.startRun with
    mem := Memory.writeAll s.mem s.placeAt (tableWords nbits w)
    pc := BitVec.ofNat 16 s.placeAt
    stopRequest := false }

end Sys2Proof.Machine
end

