-- ==== Sys2Proof/Machine/HostInterface.lean ====
section
/-! DEFINITION. What the outside does to the CORE: the transactions of spec/00_scope.md rule R12 and
spec/70_reset_and_hazards.md rule R130, each atomic and between steps (R67), the loader's byte order (R39),
and what the host may read (R29, R34). -/

namespace Sys2Proof.Machine

/-- One transaction of the host, the loader or the terminal (R12). -/
inductive HostAction where
  | reset
  | load (addr : Nat) (w : Word)
  | start
  | stopLevel (asserted : Bool)
  | inputCode (c : Word)
  | inputLine (codes : List Word)
deriving DecidableEq, Repr

/-- `reset` (R125): every piece of the CORE's state takes its reset value, whatever the CORE was doing. The
stop level, the terminal's codes and the parameters are not the CORE's and stay (log entry 3). -/
def State.hostReset (s : State) : State :=
  { State.resetWith s.cfg with stopRequest := s.stopRequest, termIn := s.termIn, termOut := s.termOut }

/-- `load(addr, word)` (R44, R45): performed in `IDLE` for an address that names a cell, refused in every other run
state. DESIGN CHOICE: in `IDLE` a load to an address that names no cell changes nothing (log entry 11). -/
def State.hostLoad (s : State) (addr : Nat) (w : Word) : State :=
  match s.runState with
  | .idle => if addr < 32768 then s.memWrite addr w else s
  | .running => s
  | .waitInput => s
  | .halted => s

/-- `start` (R129): performed in `IDLE`, refused otherwise. -/
def State.hostStart (s : State) : State :=
  match s.runState with
  | .idle => s.startRun
  | .running => s
  | .waitInput => s
  | .halted => s

/-- The terminal makes codes available, in order (R80). -/
def State.supplyInput (s : State) (codes : List Word) : State := { s with termIn := s.termIn ++ codes }

/-- The effect of one transaction. A line of input is its codes and then the line terminator (R80, R130). -/
def hostAct (a : HostAction) (s : State) : State :=
  match a with
  | .reset => s.hostReset
  | .load addr w => s.hostLoad addr w
  | .start => s.hostStart
  | .stopLevel b => { s with stopRequest := b }
  | .inputCode c => s.supplyInput [c]
  | .inputLine codes => s.supplyInput (codes ++ [Config.lineTerminator])

/-- What can happen next: a step of the CORE or a transaction of the outside (R77). -/
inductive Event where
  | tick
  | host (a : HostAction)
deriving DecidableEq, Repr

/-- Run a sequence of events, stopping at a fault or a refusal. -/
def runEvents : List Event → State → Answer
  | [], s => .next s
  | .host a :: es, s => runEvents es (hostAct a s)
  | .tick :: es, s =>
    match step s with
    | .next s' => runEvents es s'
    | .fault f => .fault f
    | .refused r => .refused r

/-- The loader delivers words from address `k` on, one `load` each (R44). -/
def State.loadFrom (s : State) (k : Nat) : List Word → State
  | [] => s
  | w :: ws => (s.hostLoad k w).loadFrom (k + 1) ws

/-- The loader delivers a program image at address 0 (R44). -/
def State.loadImage (s : State) (image : List Word) : State := s.loadFrom 0 image

/-- The boot of R127: load the image, then `start`. -/
def State.boot (s : State) (image : List Word) : State := (s.loadImage image).hostStart

/-- The loader's errors of R46 that depend on the bytes; it raises them before the run. -/
inductive LoadError where
  | oddLength
  | tooManyWords
deriving DecidableEq, Repr

/-- What the loader makes of a binary source. -/
inductive Loaded where
  | image (ws : List Word)
  | loadError (e : LoadError)
deriving DecidableEq, Repr

/-- The words of a byte sequence, least-significant byte first (R39); `none` for an odd length. -/
def wordsOfBytes : List Byte → Option (List Word)
  | [] => some []
  | [_] => none
  | lo :: hi :: rest => (wordsOfBytes rest).map (fun ws => BitVec.ofNat 16 (lo.toNat + 256 * hi.toNat) :: ws)

/-- Decode a binary source into a program image (R39, R46). DESIGN CHOICE: the spec gives the causes of a
`LoadError` no order; the odd length is tested first, so a source that is also too long reports `oddLength`
(log entry 17). -/
def loadBytes (bytes : List Byte) : Loaded :=
  match wordsOfBytes bytes with
  | none => .loadError .oddLength
  | some ws => if ws.length ≤ 32768 then .image ws else .loadError .tooManyWords

/-- The status fields, which the host reads at any time (R12, R29). -/
structure StatusView where
  runState : RunState
  halted : Bool
  stopped : Bool
  errCode : BitVec 4
  errPc : Word
  errOpcode : Word
  errOpcodeValid : Bool
deriving DecidableEq, Repr

/-- The status read (R29). -/
def State.hostStatus (s : State) : StatusView where
  runState := s.runState
  halted := s.halted
  stopped := s.stopped
  errCode := s.errCode
  errPc := s.errPc
  errOpcode := s.errOpcode
  errOpcodeValid := s.errOpcodeValid

/-- What the host reads of a CORE that is not executing: pc, registers, the stack bottom to top, memory (R34). -/
structure StateView where
  pc : Word
  regs : Vector Word 8
  stack : List Word
  mem : Memory
deriving DecidableEq, Repr

/-- The state read (R34): answered in `IDLE` and `HALTED`, not while the CORE is `RUNNING` or `WAIT_INPUT`. -/
def State.hostRead (s : State) : Option StateView :=
  match s.runState with
  | .idle | .halted => some { pc := s.pc, regs := s.regs, stack := s.stack.reverse, mem := s.mem }
  | .running | .waitInput => none

end Sys2Proof.Machine
end

