-- ==== Sys2Proof/Safety.lean ====
section
/-! DEFINITION. How a run ends (spec/10_state.md rule R30; spec/70_reset_and_hazards.md rule R131), and the
invariant of the machine that claims rest on. -/

namespace Sys2Proof.Machine

/-- The outcomes of a run that has ended (R30). -/
inductive RunOutcome where
  | normalHalt
  | stopped
  | failed (code : BitVec 4)
deriving DecidableEq, Repr

/-- The outcome the host reads from the status fields of a CORE in `HALTED`, `none` if the run has not ended
(R30, R131) or the fields show an error and a stop together, which no run does. -/
def State.outcome (s : State) : Option RunOutcome :=
  match s.runState with
  | .halted =>
    if s.errCode = 0#4 then (if s.stopped then some .stopped else some .normalHalt)
    else if s.stopped then none else some (.failed s.errCode)
  | .idle | .running | .waitInput => none

/-- A safe state: it shows no fatal error. -/
def State.safe (s : State) : Bool := s.errCode = 0#4

/-- What holds at every step boundary of every run (from R16, R21, R25 to R32, R76, R110, R112, R125). -/
structure State.Inv (s : State) : Prop where
  /-- Memory is in its canonical form. -/
  memWf : Memory.wf s.mem = true
  /-- `HALTED` = (`RUN_STATE` is `IDLE` or `HALTED`) (R26). -/
  haltedFlag : s.halted = true ↔ (s.runState = .idle ∨ s.runState = .halted)
  /-- The latches of a step do not survive it (R32). -/
  latchClear : s.latch = Latches.clear
  /-- The destination of `in` is latched only while it waits (R32). -/
  inDestClear : s.runState ≠ .waitInput → s.inDest = 0
  /-- Until the run has ended no status field is written (R29). -/
  noReportBeforeEnd : s.runState ≠ .halted →
    s.errCode = 0#4 ∧ s.stopped = false
  /-- Codes 9..15 are never written (R110). -/
  codeInRange : s.errCode.toNat ≤ 8
  /-- An error is no stop (R30). -/
  oneOutcome : s.errCode ≠ 0#4 → s.stopped = false
  /-- Without an error the report is empty (R29). -/
  noErrorNoReport : s.errCode = 0#4 → s.errPc = 0#16 ∧ s.errOpcode = 0#16 ∧ s.errOpcodeValid = false
  /-- After an error `pc` = `ERR_PC` = INSN_PC (R76, R112). -/
  errorPc : s.errCode ≠ 0#4 → s.pc = s.errPc ∧ s.insnPc = s.errPc
  /-- No opcode word is recorded only for a `FetchOutOfRange` at the opcode fetch (R112). -/
  noOpcode : s.errCode ≠ 0#4 → s.errOpcodeValid = false →
    s.errOpcode = 0#16 ∧ s.errCode = FatalError.fetchOutOfRange.code ∧ 32768 ≤ s.errPc.toNat
  /-- A bounded stack never holds more than `STACK_CAPACITY` words (R21). -/
  stackFits : ∀ n, s.cfg.stackCapacity = some n → s.stack.length ≤ n
  /-- Before the run everything but memory is at its reset value (R44, R125). -/
  idleIsReset : s.runState = .idle →
    s.pc = 0#16 ∧ s.insnPc = 0#16 ∧ s.regs = Vector.replicate 8 0#16 ∧ s.stack = []

end Sys2Proof.Machine
end

