-- ==== Sys2Proof/Certificates/Slice0/Obligations.lean ====
section
/-! DEFINITION. The statements for the provers, and the vocabulary they are written in. Each cites the rule of
spec/ it formalises. -/

namespace Sys2Proof.Claims

open Sys2Proof.Machine

/-! ### Frames -/

/-- Every piece of the state, one name each: what a frame can keep or change. -/
inductive Part where
  | cell (a : Nat)
  | reg (r : RegIdx)
  | stack | pc | insnPc | runState | haltedFlag
  | errCode | errPc | errOpcode | errOpcodeValid | stopped
  | latch | inDest | stopRequest | termIn | termOut | cfg
deriving DecidableEq, Repr

/-- The piece is the same in both states; a memory cell is compared by the model's read of one word. -/
def SamePart (s t : State) : Part → Prop
  | .cell a => Memory.read t.mem a = Memory.read s.mem a
  | .reg r => t.reg r = s.reg r
  | .stack => t.stack = s.stack
  | .pc => t.pc = s.pc
  | .insnPc => t.insnPc = s.insnPc
  | .runState => t.runState = s.runState
  | .haltedFlag => t.halted = s.halted
  | .errCode => t.errCode = s.errCode
  | .errPc => t.errPc = s.errPc
  | .errOpcode => t.errOpcode = s.errOpcode
  | .errOpcodeValid => t.errOpcodeValid = s.errOpcodeValid
  | .stopped => t.stopped = s.stopped
  | .latch => t.latch = s.latch
  | .inDest => t.inDest = s.inDest
  | .stopRequest => t.stopRequest = s.stopRequest
  | .termIn => t.termIn = s.termIn
  | .termOut => t.termOut = s.termOut
  | .cfg => t.cfg = s.cfg

/-- Every piece of the state that is not in the list, every memory cell and register among them, is
unchanged. -/
def OnlyChanges (ps : List Part) (s t : State) : Prop := ∀ p, p ∉ ps → SamePart s t p

/-- The pieces a fatal error writes (R76). -/
def errorParts : List Part :=
  [.pc, .runState, .haltedFlag, .errCode, .errPc, .errOpcode, .errOpcodeValid]

/-! ### Steps -/

/-- The CORE is at an instruction boundary of a run and the host asks for no stop. -/
def AtBoundary (s : State) : Prop := s.runState = .running ∧ s.stopRequest = false

/-- `decode(p)` at the pc is the instruction `i` (R64). -/
def NextIs (i : Instr) (s : State) : Prop := ∃ rest, decodeAt s.mem s.pc.toNat = .instr i rest

/-- When `i` executes, its n words are fetched: `pc` is INSN_PC + n. -/
def EntersAfter (i : Instr) (n : Nat) : Prop :=
  ∀ s : State, (s.fetched i).pc = s.pc + BitVec.ofNat 16 n ∧ (s.fetched i).insnPc = s.pc

/-- The operand names no register (R61). -/
def NoRegister (o : Operand) : Prop := ∀ d, o ≠ .reg d

/-- The arities of the opcodes 0..21, in order (R56). -/
def arities : List Nat := [0, 2, 1, 1, 3, 3, 1, 2, 2, 3, 3, 3, 3, 3, 2, 2, 2, 1, 0, 1, 1, 0]

/-- The opcodes whose first operand is a destination (R57). -/
def destinationOpcodes : List Nat := [1, 3, 4, 5, 9, 10, 11, 12, 13, 14, 15, 20]

/-! ### Shapes shared by the rules of one family -/

/-- An instruction `[code, dst, a, b]` that writes `f` of two values to its destination: its encoding, its
result and frame, and its errors, leftmost first. -/
def BinaryRule (mk : Operand → Operand → Operand → Instr) (code : Word) (f : Nat → Nat → Nat) : Prop :=
  ∀ (s : State) (dst a b : Operand),
    encode (mk dst a b) = [code, encodeOperand dst, encodeOperand a, encodeOperand b] ∧
    EntersAfter (mk dst a b) 4 ∧
    (∀ d va vb, dst = .reg d → s.value a = some va → s.value b = some vb →
      ∃ t, exec (mk dst a b) s = .next t ∧ (t.reg d).toNat = f va.toNat vb.toNat ∧ OnlyChanges [.reg d] s t) ∧
    (NoRegister dst → exec (mk dst a b) s = .next (s.raise .invalidRegisterTarget)) ∧
    (∀ d, dst = .reg d → (s.value a = none ∨ s.value b = none) →
      exec (mk dst a b) s = .next (s.raise .invalidOperand))

/-- A conditional jump `[code, cond, target]` that is taken exactly when `taken` holds of the condition. -/
def BranchRule (mk : Operand → Operand → Instr) (code : Word) (taken : Nat → Bool) : Prop :=
  ∀ (s : State) (cond target : Operand),
    encode (mk cond target) = [code, encodeOperand cond, encodeOperand target] ∧
    EntersAfter (mk cond target) 3 ∧
    (∀ c a, s.value cond = some c → s.value target = some a →
      ∃ t, exec (mk cond target) s = .next t ∧ t.pc = (if taken c.toNat then a else s.pc) ∧
        OnlyChanges [.pc] s t) ∧
    ((s.value cond = none ∨ s.value target = none) → exec (mk cond target) s = .next (s.raise .invalidOperand))

/-! ### Raw words -/

/-- `value(w)` of a raw word, from R60's pseudocode. -/
def rawValue (s : State) (w : Word) : Option Word :=
  if w.toNat < 32768 then some w
  else if h : w.toNat - 32768 < 8 then some (s.reg ⟨w.toNat - 32768, h⟩)
  else none

/-! ### Errors -/

/-- The errors each opcode can raise beyond `InvalidOpcode` and `FetchOutOfRange`, from the table of R111. -/
def raisable : Nat → List FatalError
  | 18 => [.stackUnderflow]
  | 1 | 4 | 5 | 9 | 10 | 12 | 13 | 14 => [.invalidOperand, .invalidRegisterTarget]
  | 11 => [.invalidOperand, .invalidRegisterTarget, .divisionByZero]
  | 2 => [.invalidOperand, .stackOverflow]
  | 3 => [.invalidRegisterTarget, .stackUnderflow]
  | 6 | 7 | 8 => [.invalidOperand]
  | 15 => [.invalidOperand, .invalidRegisterTarget, .memoryAddressOutOfRange]
  | 16 => [.invalidOperand, .memoryAddressOutOfRange]
  | 17 => [.invalidOperand, .stackOverflow]
  | 19 => [.invalidOperand]
  | 20 => [.invalidRegisterTarget]
  | _ => []

/-- The errors of an instruction's operands in order: a destination that is no register, a value that does not
resolve (R113 item 5). -/
def operandErrors (s : State) (i : Instr) : List FatalError :=
  let destinations := if i.opcode ∈ destinationOpcodes then i.operands.take 1 else []
  let values := if i.opcode ∈ destinationOpcodes then i.operands.drop 1 else i.operands
  (destinations.filter (fun o => (destOf o).isNone)).map (fun _ => .invalidRegisterTarget) ++
    (values.filter (fun o => (s.value o).isNone)).map (fun _ => .invalidOperand)

/-- The operand resolves to a value with property `p`. -/
def valueHas (s : State) (o : Operand) (p : Nat → Bool) : Bool := (s.value o).any (fun v => p v.toNat)

/-- The instruction's own check, if it fails (R113 item 6). -/
def ownErrors (s : State) : Instr → List FatalError
  | .pop _ | .ret => if s.stack = [] then [.stackUnderflow] else []
  | .mod _ _ b => if valueHas s b (· = 0) then [.divisionByZero] else []
  | .rmem _ a | .wmem a _ => if valueHas s a (32768 ≤ ·) then [.memoryAddressOutOfRange] else []
  | .push _ | .call _ => if s.cfg.stackCapacity = some s.stack.length then [.stackOverflow] else []
  | .halt | .set _ _ | .eq _ _ _ | .gt _ _ _ | .jmp _ | .jt _ _ | .jf _ _ | .add _ _ _ | .mult _ _ _
  | .and _ _ _ | .or _ _ _ | .not _ _ | .out _ | .input _ | .noop => []

/-- All the errors a step in `RUNNING` could report, in the order of R113. -/
def stepErrors (s : State) : List FatalError :=
  match decodeAt s.mem s.pc.toNat with
  | .outOfWords => [.fetchOutOfRange]
  | .invalidOpcode _ => [.invalidOpcode]
  | .instr i _ => operandErrors s i ++ ownErrors s i

/-- The target an instruction transfers control to, if it does (R24). -/
def transferTarget (s : State) : Instr → Option Word
  | .jmp t | .call t => s.value t
  | .jt c t => if s.value c = some 0#16 then none else s.value t
  | .jf c t => if s.value c = some 0#16 then s.value t else none
  | .ret => s.stack.head?
  | .halt | .set _ _ | .push _ | .pop _ | .eq _ _ _ | .gt _ _ _ | .add _ _ _ | .mult _ _ _ | .mod _ _ _
  | .and _ _ _ | .or _ _ _ | .not _ _ | .rmem _ _ | .wmem _ _ | .out _ | .input _ | .noop => none

/-- The event is a reset. -/
def isReset : Event → Bool
  | .host .reset => true
  | .host (.load _ _) | .host .start | .host (.stopLevel _) | .host (.inputCode _) | .host (.inputLine _)
  | .tick => false

/-- Execute an `in` for each register in turn and collect the code each reads; `none` if one of them has to wait. -/
def readCodes : List RegIdx → State → Option (List Word × State)
  | [], s => some ([], s)
  | d :: ds, s =>
    match exec (.input (.reg d)) s with
    | .next t =>
      if t.runState = .waitInput then none
      else (readCodes ds t).map (fun r => (t.reg d :: r.1, r.2))
    | .fault _ => none
    | .refused _ => none

/-- No event of the sequence, run from the state, writes the cell: none is a reset, and at no instruction boundary
is a `wmem` next whose first operand names the cell. -/
def LeavesCell (a : Nat) : List Event → State → Prop
  | [], _ => True
  | e :: es, s =>
    isReset e = false ∧
    (AtBoundary s → ∀ addr val ea, NextIs (.wmem addr val) s → s.value addr = some ea → ea.toNat ≠ a) ∧
    ∀ t, runEvents [e] s = .next t → LeavesCell a es t

/-- The outcome of a run (R30): none until it has ended, and then the one of the three that the status fields say. -/
def OneOutcome (s : State) : Prop :=
  (s.runState ≠ .halted → s.outcome = none) ∧
  (s.runState = .halted →
    (s.errCode = 0#4 ∧ s.stopped = false ∧ s.outcome = some .normalHalt) ∨
    (s.errCode = 0#4 ∧ s.stopped = true ∧ s.outcome = some .stopped) ∨
    (s.errCode ≠ 0#4 ∧ s.stopped = false ∧ s.outcome = some (.failed s.errCode)))

end Sys2Proof.Claims

open Sys2Proof Sys2Proof.Machine Sys2Proof.Claims

/-! ### Reset and the host -/

/-- R125, R35: reset puts every piece of the CORE's state at its reset value, in whatever state it is issued;
`State.reset` is such a state. -/
def Obligations.ResetGivesEveryResetValue : Prop :=
  ∀ s t : State, (t = hostAct .reset s ∨ t = State.reset) →
    (∀ a, Memory.read t.mem a = 0#16) ∧ (∀ r, t.reg r = 0#16) ∧ t.stack = [] ∧ t.pc = 0#16 ∧
    t.insnPc = 0#16 ∧ t.runState = .idle ∧ t.halted = true ∧ t.errCode = 0#4 ∧ t.errPc = 0#16 ∧
    t.errOpcode = 0#16 ∧ t.errOpcodeValid = false ∧ t.stopped = false ∧ t.latch = Latches.clear ∧ t.inDest = 0

/-- R45, with the storing of R44: in `IDLE` a `load` to an address 0..32767 stores its word there and does
nothing else; in every other run state it changes nothing. -/
def Obligations.LoadIsPerformedOnlyInIdle : Prop :=
  ∀ (s : State) (a : Nat) (w : Word),
    (s.runState = .idle → Memory.wf s.mem = true → a < 32768 →
      Memory.read (hostAct (.load a w) s).mem a = w ∧ OnlyChanges [.cell a] s (hostAct (.load a w) s)) ∧
    (s.runState ≠ .idle → hostAct (.load a w) s = s)

/-- R44: an image of at most 32768 words is placed verbatim at addresses 0..count-1, the other cells keep what
they held (0 after reset), and nothing but memory changes; one `load` stores one word. -/
def Obligations.ImageIsPlacedVerbatim : Prop :=
  ∀ (s : State) (image : List Word), s.runState = .idle → Memory.wf s.mem = true → image.length ≤ 32768 →
    (∀ k, k < image.length → Memory.read (s.loadImage image).mem k = image.getD k 0#16) ∧
    (∀ k, image.length ≤ k → Memory.read (s.loadImage image).mem k = Memory.read s.mem k) ∧
    (∀ k, image.length ≤ k → Memory.read (s.hostReset.loadImage image).mem k = 0#16) ∧
    (∀ p, (∀ a, p ≠ .cell a) → SamePart s (s.loadImage image) p) ∧
    (∀ a w, a < 32768 → Memory.read (hostAct (.load a w) s).mem a = w ∧
      OnlyChanges [.cell a] s (hostAct (.load a w) s))

/-- R129: `start` is performed in `IDLE` only, and the next step fetches at the pc; elsewhere it changes nothing. -/
def Obligations.StartIsPerformedOnlyInIdle : Prop :=
  ∀ s : State,
    (s.runState = .idle → (hostAct .start s).halted = false ∧ (hostAct .start s).runState = .running ∧
      OnlyChanges [.haltedFlag, .runState] s (hostAct .start s) ∧
      (s.stopRequest = false → ∃ t, step (hostAct .start s) = .next t ∧ t.insnPc = s.pc)) ∧
    (s.runState ≠ .idle → hostAct .start s = s)

/-- The loader's byte order of R39 and the two byte errors of R46: word k is byte 2k plus 256 times byte
2k + 1. The spec has one `LoadError` and no order of its causes: that every odd length, one above 65536 bytes
too, is reported as `oddLength` is the model's choice (log entry 17); the loader itself is outside the CORE (log
entry 12). -/
def Obligations.LoaderWordsAreLittleEndian : Prop :=
  ∀ bytes : List Byte,
    (bytes.length % 2 = 1 → loadBytes bytes = .loadError .oddLength) ∧
    (bytes.length % 2 = 0 → 2 * 32768 < bytes.length → loadBytes bytes = .loadError .tooManyWords) ∧
    (bytes.length % 2 = 0 → bytes.length ≤ 2 * 32768 → ∃ ws, loadBytes bytes = .image ws ∧
      2 * ws.length = bytes.length ∧
      ∀ k, k < ws.length → (ws.getD k 0#16).toNat =
        (bytes.getD (2 * k) 0#8).toNat + 256 * (bytes.getD (2 * k + 1) 0#8).toNat)

/-- R34: the host reads pc, registers, stack (bottom to top) and memory exactly in `IDLE` and `HALTED`. -/
def Obligations.HostReadsStateOnlyBetweenRuns : Prop :=
  ∀ s : State,
    ((s.runState = .idle ∨ s.runState = .halted) → ∃ v, s.hostRead = some v ∧ v.pc = s.pc ∧
      (∀ r : RegIdx, v.regs[r.val] = s.reg r) ∧ v.stack.reverse = s.stack ∧
      ∀ a, Memory.read v.mem a = Memory.read s.mem a) ∧
    ((s.runState = .running ∨ s.runState = .waitInput) → s.hostRead = none)

/-- R80 and R130, as `in` sees them: a line of any number of codes, the empty line too, is read after the codes
that were pending, code by code and then its terminator 10, and the next `in` waits; an `in` that waits when the
line arrives takes its first code. That pending codes form a queue is the model's choice (log entry 8). -/
def Obligations.LineIsReadThenItsTerminator : Prop :=
  ∀ (s : State) (codes : List Word),
    (∀ ds : List RegIdx, ds.length = s.termIn.length + codes.length + 1 →
      ∃ u, readCodes ds (hostAct (.inputLine codes) s) = some (s.termIn ++ codes ++ [10#16], u) ∧
        ∀ d : RegIdx, ∃ w, exec (.input (.reg d)) u = .next w ∧ w.runState = .waitInput) ∧
    (s.runState = .waitInput → s.termIn = [] → ∃ t, step (hostAct (.inputLine codes) s) = .next t ∧
      t.runState = .running ∧ t.reg s.inDest :: t.termIn = codes ++ [10#16])

/-! ### Memory and words -/

/-- Two memories in canonical form that read the same everywhere are the same list (the model's own form of
memory, log entry 1). -/
def Obligations.CanonicalMemoriesWithEqualReadsAreEqual : Prop :=
  ∀ m m' : Memory, Memory.wf m = true → Memory.wf m' = true →
    (∀ a, Memory.read m a = Memory.read m' a) → m = m'

/-- R51, R52: the class of a raw operand word by its value, and by its bit pattern. -/
def Obligations.OperandClassIsTheWholeWords : Prop :=
  ∀ w : Word,
    (w.toNat < 32768 → decodeOperand w = .lit w) ∧
    (∀ r : RegIdx, w.toNat = 32768 + r.val → decodeOperand w = .reg r) ∧
    (32776 ≤ w.toNat → decodeOperand w = .invalid w) ∧
    (w.getLsbD 15 = false ↔ ∃ v, decodeOperand w = .lit v) ∧
    (w.extractLsb' 3 13 = 4096#13 ↔ ∃ r : RegIdx, decodeOperand w = .reg r ∧ w.extractLsb' 0 3 = BitVec.ofNat 3 r.val)

/-- R60, R61, R63: the operand resolver on raw words. A literal is no destination, and no invalid word is masked to
a literal or a register: whatever would go on with it (`k`) is not run, and the error is raised. -/
def Obligations.ResolverFollowsRawWord : Prop :=
  ∀ (s : State) (w : Word),
    (w.toNat < 32768 → s.value (decodeOperand w) = some w ∧ destOf (decodeOperand w) = none ∧
      ∀ k, withDest (decodeOperand w) s k = .next (s.raise .invalidRegisterTarget)) ∧
    (∀ r : RegIdx, w.toNat = 32768 + r.val →
      s.value (decodeOperand w) = some (s.reg r) ∧ destOf (decodeOperand w) = some r) ∧
    (32776 ≤ w.toNat → s.value (decodeOperand w) = none ∧ destOf (decodeOperand w) = none ∧
      (∀ k, withValue (decodeOperand w) s k = .next (s.raise .invalidOperand)) ∧
      ∀ k, withDest (decodeOperand w) s k = .next (s.raise .invalidRegisterTarget))

/-- Words written out from R56 and R65 decode to the instructions they stand for. -/
def Obligations.WrittenOutWordsDecode : Prop :=
  decode [9#16, 32768#16, 32767#16, 5#16] = .instr (.add (.reg 0) (.lit 32767#16) (.lit 5#16)) [] ∧
  decode [16#16, 32768#16, 5#16, 0#16] = .instr (.wmem (.reg 0) (.lit 5#16)) [0#16] ∧
  decode [17#16, 7#16] = .instr (.call (.lit 7#16)) [] ∧
  decode [20#16, 32775#16] = .instr (.input (.reg 7)) [] ∧
  decode [7#16, 0#16, 32776#16] = .instr (.jt (.lit 0#16) (.invalid 32776#16)) [] ∧
  decode [18#16, 3#16] = .instr .ret [3#16] ∧
  decode [22#16] = .invalidOpcode 22#16 ∧ decode [1#16, 32768#16] = .outOfWords

/-- Decoding what `encode` writes, followed by anything, gives back the instruction and what followed. -/
def Obligations.DecodeOfEncodeIsTheInstruction : Prop :=
  ∀ (i : Instr) (rest : List Word), i.wf = true → decode (encode i ++ rest) = .instr i rest

/-- Whatever decodes to an instruction is that instruction's encoding: each word has one meaning. -/
def Obligations.EncodeOfDecodeIsTheWords : Prop :=
  ∀ (ws : List Word) (i : Instr) (rest : List Word), decode ws = .instr i rest →
    i.wf = true ∧ encode i ++ rest = ws

/-- R64: `decode(p)` on any memory: the four cases in their order. -/
def Obligations.DecodeAtAnAddressIsTotal : Prop :=
  ∀ (m : Memory) (p : Nat),
    (32768 ≤ p → decodeAt m p = .outOfWords) ∧
    (p < 32768 → 22 ≤ (Memory.read m p).toNat → decodeAt m p = .invalidOpcode (Memory.read m p)) ∧
    (∀ n, p < 32768 → arities[(Memory.read m p).toNat]? = some n → 32768 ≤ p + n → decodeAt m p = .outOfWords) ∧
    (∀ n, arities[(Memory.read m p).toNat]? = some n → p + n < 32768 → ∃ i rest,
      decodeAt m p = .instr i rest ∧ i.opcode = (Memory.read m p).toNat ∧
      i.operands.map encodeOperand = (List.range n).map (fun k => Memory.read m (p + 1 + k)))

/-! ### The step -/

/-- A step at an instruction boundary executes the instruction that the words at the pc decode to, in the state
in which its words are fetched (R69 to R73, R75); the latches do not survive it (R32), and that `finish` clears
them is the model's choice (log entry 5). -/
def Obligations.StepRunsTheDecodedInstruction : Prop :=
  ∀ (s : State) (i : Instr), AtBoundary s → NextIs i s → step s = finish (exec i (s.fetched i))

/-- R68: a stop request is honoured at a boundary, before any fetch, and changes only the run's end; while an
`in` waits it is not honoured, and it is sampled at the first boundary after the `in` completes. That a stop step
leaves INSN_PC is read from R75 (log entry 14), and that the model's step answers the same state while an `in`
waits is the model's choice (log entry 4). -/
def Obligations.StopIsHonouredOnlyAtBoundaries : Prop :=
  ∀ s : State,
    (s.runState = .running → s.stopRequest = true → ∃ t, step s = .next t ∧ t.halted = true ∧
      t.stopped = true ∧ t.runState = .halted ∧ OnlyChanges [.haltedFlag, .stopped, .runState] s t) ∧
    (s.runState = .waitInput → s.termIn = [] → step s = .next s) ∧
    (∀ c rest, s.runState = .waitInput → s.termIn = c :: rest → s.stopRequest = true →
      ∃ t u, step s = .next t ∧ t.runState = .running ∧ t.stopped = s.stopped ∧
        step t = .next u ∧ u.runState = .halted ∧ u.stopped = true ∧ u.pc = s.pc)

/-- The CORE does nothing in `IDLE` and `HALTED` and nothing while an `in` waits with no code available (R66; that
the model's step then answers the same state is the model's choice, log entry 4); in `RUNNING` it samples the
pc into INSN_PC. -/
def Obligations.NothingHappensOutsideARun : Prop :=
  ∀ s : State,
    (s.runState = .idle → step s = .next s) ∧ (s.runState = .halted → step s = .next s) ∧
    (s.runState = .waitInput → s.termIn = [] → step s = .next s) ∧
    (AtBoundary s → ∃ t, step s = .next t ∧ t.insnPc = s.pc)

/-- R118: every instruction may be executed at any time. Every instruction, in every state, answers a next state,
and so does every step: no fault and no refusal (log entry 7). -/
def Obligations.EveryInstructionAndStepAnswersANextState : Prop :=
  (∀ (i : Instr) (s : State), ∃ t, exec i s = .next t) ∧ ∀ s : State, ∃ t, step s = .next t

/-- R74 and R58 with R76 and R112: a fetch past memory and a word that is no opcode end the run with
`FetchOutOfRange` and `InvalidOpcode`, and the pc never wraps. -/
def Obligations.FetchErrorsEndTheRun : Prop :=
  ∀ s : State, AtBoundary s →
    (32768 ≤ s.pc.toNat → ∃ t, step s = .next t ∧ t.errCode = 6#4 ∧ t.errPc = s.pc ∧ t.pc = s.pc ∧
      t.errOpcodeValid = false ∧ t.errOpcode = 0#16 ∧ t.halted = true ∧ t.runState = .halted ∧
      OnlyChanges (.insnPc :: .latch :: errorParts) s t) ∧
    (∀ n, s.pc.toNat < 32768 → arities[(Memory.read s.mem s.pc.toNat).toNat]? = some n →
      32768 ≤ s.pc.toNat + n → ∃ t, step s = .next t ∧ t.errCode = 6#4 ∧ t.errPc = s.pc ∧ t.pc = s.pc ∧
      t.errOpcodeValid = true ∧ t.errOpcode = Memory.read s.mem s.pc.toNat ∧ t.halted = true ∧
      t.runState = .halted ∧ OnlyChanges (.insnPc :: .latch :: errorParts) s t) ∧
    (s.pc.toNat < 32768 → 22 ≤ (Memory.read s.mem s.pc.toNat).toNat → ∃ t, step s = .next t ∧
      t.errCode = 1#4 ∧ t.errPc = s.pc ∧ t.pc = s.pc ∧ t.errOpcodeValid = true ∧
      t.errOpcode = Memory.read s.mem s.pc.toNat ∧ t.halted = true ∧ t.runState = .halted ∧
      OnlyChanges (.insnPc :: .latch :: errorParts) s t)

/-- R76 and R110: what raising an error records, under which code, and that it ends the run and changes nothing else;
`raise` names the state in the statements of the instructions. -/
def Obligations.RaiseRecordsTheErrorAndHalts : Prop :=
  ∀ s : State,
    [FatalError.invalidOpcode, .invalidOperand, .invalidRegisterTarget, .stackUnderflow, .divisionByZero,
      .fetchOutOfRange, .memoryAddressOutOfRange, .stackOverflow].map (fun e => (s.raise e).errCode.toNat) =
      [1, 2, 3, 4, 5, 6, 7, 8] ∧
    ∀ e : FatalError, (s.raise e).pc = s.insnPc ∧ (s.raise e).errPc = s.insnPc ∧
      (s.latch.opFetched = true → (s.raise e).errOpcode = s.latch.op ∧ (s.raise e).errOpcodeValid = true) ∧
      (s.latch.opFetched = false → (s.raise e).errOpcode = 0#16 ∧ (s.raise e).errOpcodeValid = false) ∧
      (s.raise e).halted = true ∧ (s.raise e).runState = .halted ∧ OnlyChanges errorParts s (s.raise e)

/-- R76, R112: a step that ends in a fatal error records it, ends the run, and has no other effect: memory,
registers, stack, terminal and pc are as they were. -/
def Obligations.FatalStepHasNoOtherEffect : Prop :=
  ∀ s t : State, AtBoundary s → s.errCode = 0#4 → step s = .next t → t.errCode ≠ 0#4 →
    OnlyChanges [.insnPc, .latch, .runState, .haltedFlag, .errCode, .errPc, .errOpcode, .errOpcodeValid] s t ∧
    t.insnPc = s.pc ∧ t.errPc = s.pc ∧ t.runState = .halted ∧ t.halted = true ∧
    (s.pc.toNat < 32768 → t.errOpcodeValid = true ∧ t.errOpcode = Memory.read s.mem s.pc.toNat) ∧
    (32768 ≤ s.pc.toNat → t.errOpcodeValid = false ∧ t.errOpcode = 0#16)

/-- R111: which instructions can raise which error when they execute, both ways. -/
def Obligations.InstructionsRaiseExactlyTheirErrors : Prop :=
  ∀ (code : Nat) (e : FatalError), code < 22 →
    (e ∈ raisable code ↔ ∃ (i : Instr) (s t : State), i.opcode = code ∧ s.errCode = 0#4 ∧
      exec i s = .next t ∧ t.errCode = e.code)

/-- R113: a step reports the first error in the order stop, fetch, opcode, operands left to right, own check, and
none if there is none. -/
def Obligations.FirstErrorInOrderIsReported : Prop :=
  ∀ s : State, s.runState = .running → s.errCode = 0#4 →
    (s.stopRequest = true → ∃ t, step s = .next t ∧ t.errCode = 0#4 ∧ t.stopped = true) ∧
    (s.stopRequest = false → ∃ t, step s = .next t ∧ t.stopped = s.stopped ∧
      t.errCode = ((stepErrors s).head?.map FatalError.code).getD 0#4)

/-- R24: after a step without an error the pc is the target, if control was transferred, and otherwise
INSN_PC + 1 + arity, a number that never wraps; a pc past memory ends the run at the next fetch. -/
def Obligations.PcAfterAStep : Prop :=
  ∀ (s t : State) (i : Instr), AtBoundary s → s.errCode = 0#4 → NextIs i s → step s = .next t → t.errCode = 0#4 →
    (∀ a, transferTarget s i = some a → t.pc = a) ∧
    (transferTarget s i = none → t.pc.toNat = s.pc.toNat + 1 + i.operands.length ∧ t.pc.toNat ≤ 32768) ∧
    (32768 ≤ t.pc.toNat → AtBoundary t → ∃ u, step t = .next u ∧ u.errCode = 6#4 ∧ u.pc = t.pc)

/-- R78, with R68: a run ends only by `halt`, by a fatal error or by an honoured stop request. -/
def Obligations.RunEndsOnlyByHaltErrorOrStop : Prop :=
  ∀ s t : State, s.errCode = 0#4 → s.stopped = false → step s = .next t → s.runState ≠ .halted →
    t.runState = .halted →
    s.runState = .running ∧
      ((s.stopRequest = true ∧ t.stopped = true ∧ t.errCode = 0#4) ∨
       (s.stopRequest = false ∧ t.stopped = false ∧ t.errCode ≠ 0#4) ∨
       (s.stopRequest = false ∧ t.stopped = false ∧ t.errCode = 0#4 ∧ NextIs .halt s))

/-- R29: a status field changes only in the step that ends the run; `STOPPED` only by a stop request, to 1. -/
def Obligations.StatusIsWrittenOnlyAsTheRunEnds : Prop :=
  ∀ s t : State, step s = .next t →
    ((t.errCode ≠ s.errCode ∨ t.errPc ≠ s.errPc ∨ t.errOpcode ≠ s.errOpcode ∨
        t.errOpcodeValid ≠ s.errOpcodeValid ∨ t.stopped ≠ s.stopped) →
      s.runState = .running ∧ t.runState = .halted) ∧
    (t.stopped ≠ s.stopped → s.stopRequest = true ∧ t.stopped = true ∧ t.errCode = s.errCode)

/-- R124 and R115: what can follow each run state in a step. -/
def Obligations.RunStateTransitions : Prop :=
  ∀ s t : State, step s = .next t →
    (s.runState = .idle → t.runState = .idle) ∧ (s.runState = .halted → t.runState = .halted) ∧
    (s.runState = .waitInput → t.runState = .waitInput ∨ t.runState = .running) ∧
    (s.runState = .running → t.runState ≠ .idle) ∧
    (t.runState = .waitInput → s.runState ≠ .waitInput → ∃ d, NextIs (.input (.reg d)) s ∧ s.termIn = [])

/-- R115: from `HALTED`, no sequence of steps and host transactions without a reset changes anything of the CORE:
only the host's stop level and the terminal's pending codes can change. -/
def Obligations.HaltedIsLeftOnlyByReset : Prop :=
  ∀ (es : List Event) (s : State), s.runState = .halted → es.all (fun e => !isReset e) = true →
    ∃ t, runEvents es s = .next t ∧ OnlyChanges [.stopRequest, .termIn] s t

/-! ### Invariants -/

/-- The invariant holds after reset, of every implementation (R35, R125). Its clause on memory is the canonical form,
the model's choice (log entry 1). -/
def Obligations.InvariantHoldsAtReset : Prop := State.reset.Inv ∧ ∀ cfg : Config, (State.resetWith cfg).Inv

/-- Every step keeps the invariant, whose clauses name their rules in `State.Inv`. Two of its grounds are the
model's choice: the canonical form of memory (log entry 1), and that latches which do not survive (R32) are
cleared (log entry 5). -/
def Obligations.StepKeepsInvariant : Prop := ∀ s t : State, s.Inv → step s = .next t → t.Inv

/-- Every transaction of the host, the loader and the terminal keeps the invariant. The canonical form of memory
(log entry 1), the cleared latches (log entry 5), and that a load in `IDLE` to an address that names no cell changes
nothing (log entry 11) are the model's choices. -/
def Obligations.HostActionsKeepInvariant : Prop := ∀ (a : HostAction) (s : State), s.Inv → (hostAct a s).Inv

/-- R30, R26: a state that meets the invariant has no outcome before its run has ended and exactly one of the three
then, and so has every state that a step or an outside transaction leads to from it. The invariant rests on log
entries 1 and 5, and the loads it ranges over on log entry 11. -/
def Obligations.InvariantGivesExactlyOneOutcome : Prop :=
  ∀ s : State, s.Inv →
    OneOutcome s ∧ (∀ t, step s = .next t → OneOutcome t) ∧ ∀ a : HostAction, OneOutcome (hostAct a s)

/-- R30, R131: whatever the host does and however the CORE steps, from reset on, the invariant holds; a run has
ended exactly when `RUN_STATE` is `HALTED`, and then exactly one of the three outcomes holds. The canonical form of
memory (log entry 1), the cleared latches (log entry 5) and loads to addresses that name no cell (log entry 11)
are the model's choices. -/
def Obligations.EveryEndedRunHasExactlyOneOutcome : Prop :=
  ∀ (cfg : Config) (es : List Event), ∃ t, runEvents es (State.resetWith cfg) = .next t ∧ t.Inv ∧ OneOutcome t

/-! ### What instructions can touch -/

/-- R37: of all instructions only `wmem` changes memory, and only the cell its first operand's value names. -/
def Obligations.OnlyWmemWritesMemory : Prop :=
  ∀ (i : Instr) (s t : State) (a : Nat), exec i s = .next t → Memory.read t.mem a ≠ Memory.read s.mem a →
    ∃ addr val ea, i = .wmem addr val ∧ s.value addr = some ea ∧ a = ea.toNat

/-- R17, R57: of all instructions only the twelve with a destination change a register, and only that one. -/
def Obligations.OnlyTheDestinationRegisterIsWritten : Prop :=
  ∀ (i : Instr) (s t : State) (r : RegIdx), exec i s = .next t →
    t.reg r ≠ s.reg r → i.opcode ∈ destinationOpcodes ∧ i.operands.head? = some (.reg r)

/-- R20: only `push` and `call` push, one word; only `pop` and `ret` pop, one word. -/
def Obligations.OnlyFourInstructionsTouchTheStack : Prop :=
  ∀ (i : Instr) (s t : State), exec i s = .next t → t.stack ≠ s.stack →
    ((i.opcode = 2 ∨ i.opcode = 17) ∧ ∃ v, t.stack = v :: s.stack) ∨
    ((i.opcode = 3 ∨ i.opcode = 18) ∧ ∃ v, s.stack = v :: t.stack)

/-- R38, R79, R80: the terminal is reached only through `out`, which passes one code, and `in`, which takes the
oldest one. -/
def Obligations.OnlyOutAndInReachTheTerminal : Prop :=
  ∀ (i : Instr) (s t : State), exec i s = .next t →
    (t.termOut ≠ s.termOut → ∃ o c, i = .out o ∧ s.value o = some c ∧ t.termOut = s.termOut ++ [c]) ∧
    (t.termIn ≠ s.termIn → ∃ d c, i = .input (.reg d) ∧ s.termIn = c :: t.termIn ∧ t.reg d = c)

/-- R31, R28: no instruction reads a status field, `HALTED`, `RUN_STATE` or the host's stop level: two states that
differ only in these are taken to states that agree in memory, registers, stack, pc, terminal and all else a
program or the next fetch can see. -/
def Obligations.NoInstructionReadsStatusOrFlags : Prop :=
  ∀ (i : Instr) (s : State) (rs : RunState) (h v st sr : Bool) (ec : BitVec 4) (ep eo : Word),
    ∃ t t', exec i s = .next t ∧
      exec i { s with runState := rs, halted := h, errCode := ec, errPc := ep, errOpcode := eo,
                      errOpcodeValid := v, stopped := st, stopRequest := sr } = .next t' ∧
      OnlyChanges [.runState, .haltedFlag, .errCode, .errPc, .errOpcode, .errOpcodeValid, .stopped,
        .stopRequest] t t'

/-! ### The rules of the instructions -/

/-- R81. -/
def Obligations.HaltEndsTheRun : Prop :=
  encode .halt = [0#16] ∧ EntersAfter .halt 1 ∧
  ∀ s : State, ∃ t, exec .halt s = .next t ∧ t.halted = true ∧ t.runState = .halted ∧
    OnlyChanges [.haltedFlag, .runState] s t

/-- R84. -/
def Obligations.NoopHasNoEffect : Prop :=
  encode .noop = [21#16] ∧ EntersAfter .noop 1 ∧
  (∀ s : State, exec .noop s = .next s) ∧
  ∀ s : State, AtBoundary s → NextIs .noop s → ∃ t, step s = .next t ∧ t.pc = s.pc + 1#16 ∧
    OnlyChanges [.pc, .insnPc, .latch] s t

/-- R82. -/
def Obligations.OutPassesTheCodeUnchanged : Prop :=
  ∀ (s : State) (val : Operand),
    encode (.out val) = [19#16, encodeOperand val] ∧ EntersAfter (.out val) 2 ∧
    (∀ c, s.value val = some c → ∃ t, exec (.out val) s = .next t ∧ t.termOut = s.termOut ++ [c] ∧
      OnlyChanges [.termOut] s t) ∧
    (s.value val = none → exec (.out val) s = .next (s.raise .invalidOperand))

/-- R83: `in` completes at once with the oldest available code; with none it waits, its destination latched; the
wait ends with the first code; a destination that is no register faults and asks for no input. That the latch of
the destination is 0 after completion (log entry 5), that the step answers the same state while there is no code
(log entry 4), and that the completing step leaves INSN_PC (log entry 14) are the model's, not R83's. -/
def Obligations.InTakesACodeOrWaits : Prop :=
  ∀ (s : State) (dst : Operand),
    encode (.input dst) = [20#16, encodeOperand dst] ∧ EntersAfter (.input dst) 2 ∧
    (∀ d c rest, dst = .reg d → s.termIn = c :: rest → ∃ t, exec (.input dst) s = .next t ∧ t.reg d = c ∧
      t.termIn = rest ∧ t.runState = .running ∧ t.inDest = 0 ∧
      OnlyChanges [.reg d, .termIn, .runState, .inDest] s t) ∧
    (∀ d, dst = .reg d → s.termIn = [] → ∃ t, exec (.input dst) s = .next t ∧ t.runState = .waitInput ∧
      t.inDest = d ∧ OnlyChanges [.runState, .inDest] s t) ∧
    (∀ c rest, s.runState = .waitInput → s.termIn = c :: rest → ∃ t, step s = .next t ∧ t.reg s.inDest = c ∧
      t.termIn = rest ∧ t.runState = .running ∧ OnlyChanges [.reg s.inDest, .termIn, .runState, .inDest] s t) ∧
    (s.runState = .waitInput → s.termIn = [] → step s = .next s) ∧
    (NoRegister dst → exec (.input dst) s = .next (s.raise .invalidRegisterTarget))

/-- R85. -/
def Obligations.SetCopiesTheWholeValue : Prop :=
  ∀ (s : State) (dst val : Operand),
    encode (.set dst val) = [1#16, encodeOperand dst, encodeOperand val] ∧ EntersAfter (.set dst val) 3 ∧
    (∀ d v, dst = .reg d → s.value val = some v → ∃ t, exec (.set dst val) s = .next t ∧ t.reg d = v ∧
      OnlyChanges [.reg d] s t) ∧
    (NoRegister dst → exec (.set dst val) s = .next (s.raise .invalidRegisterTarget)) ∧
    (∀ d, dst = .reg d → s.value val = none → exec (.set dst val) s = .next (s.raise .invalidOperand))

/-- R86, with the capacity of R21. -/
def Obligations.PushAppendsItsValue : Prop :=
  ∀ (s : State) (val : Operand),
    encode (.push val) = [2#16, encodeOperand val] ∧ EntersAfter (.push val) 2 ∧
    (∀ v, s.value val = some v → s.cfg.stackCapacity ≠ some s.stack.length →
      ∃ t, exec (.push val) s = .next t ∧ t.stack = v :: s.stack ∧ OnlyChanges [.stack] s t) ∧
    (s.value val = none → exec (.push val) s = .next (s.raise .invalidOperand)) ∧
    (∀ v, s.value val = some v → s.cfg.stackCapacity = some s.stack.length →
      exec (.push val) s = .next (s.raise .stackOverflow))

/-- R87: the destination is checked before the stack; a push followed by a pop gives the value back. -/
def Obligations.PopTakesTheTop : Prop :=
  ∀ (s : State) (dst : Operand),
    encode (.pop dst) = [3#16, encodeOperand dst] ∧ EntersAfter (.pop dst) 2 ∧
    (∀ d v rest, dst = .reg d → s.stack = v :: rest → ∃ t, exec (.pop dst) s = .next t ∧ t.reg d = v ∧
      t.stack = rest ∧ OnlyChanges [.reg d, .stack] s t) ∧
    (NoRegister dst → exec (.pop dst) s = .next (s.raise .invalidRegisterTarget)) ∧
    (∀ d, dst = .reg d → s.stack = [] → exec (.pop dst) s = .next (s.raise .stackUnderflow)) ∧
    (∀ d val v t, dst = .reg d → s.value val = some v → s.cfg.stackCapacity ≠ some s.stack.length →
      exec (.push val) s = .next t → ∃ u, exec (.pop dst) t = .next u ∧ u.reg d = v ∧ u.stack = s.stack)

/-- R90, R91: `eq` and `gt` compare whole values, unsigned, and write 0 or 1. -/
def Obligations.ComparisonsWriteZeroOrOne : Prop :=
  BinaryRule .eq 4#16 (fun va vb => if va = vb then 1 else 0) ∧
  BinaryRule .gt 5#16 (fun va vb => if va > vb then 1 else 0)

/-- R92, R93: `add` and `mult` write the exact sum or product modulo 32768. -/
def Obligations.AddAndMultWrapModulo32768 : Prop :=
  BinaryRule .add 9#16 (fun va vb => (va + vb) % 32768) ∧
  BinaryRule .mult 10#16 (fun va vb => (va * vb) % 32768)

/-- R95, R96: `and` and `or` write the 16-bit result unmasked. -/
def Obligations.AndOrAreUnmasked : Prop :=
  BinaryRule .and 12#16 (fun va vb => va &&& vb) ∧ BinaryRule .or 13#16 (fun va vb => va ||| vb)

/-- R94: `mod` writes the exact remainder, and a zero divisor faults after the operands are resolved. -/
def Obligations.ModWritesTheRemainder : Prop :=
  ∀ (s : State) (dst a b : Operand),
    encode (.mod dst a b) = [11#16, encodeOperand dst, encodeOperand a, encodeOperand b] ∧
    EntersAfter (.mod dst a b) 4 ∧
    (∀ d va vb, dst = .reg d → s.value a = some va → s.value b = some vb → vb.toNat ≠ 0 →
      ∃ t, exec (.mod dst a b) s = .next t ∧ (t.reg d).toNat = va.toNat % vb.toNat ∧
        OnlyChanges [.reg d] s t) ∧
    (NoRegister dst → exec (.mod dst a b) s = .next (s.raise .invalidRegisterTarget)) ∧
    (∀ d, dst = .reg d → (s.value a = none ∨ s.value b = none) →
      exec (.mod dst a b) s = .next (s.raise .invalidOperand)) ∧
    (∀ d va vb, dst = .reg d → s.value a = some va → s.value b = some vb → vb.toNat = 0 →
      exec (.mod dst a b) s = .next (s.raise .divisionByZero))

/-- R97: `not` writes 32767 - (va mod 32768); done twice it gives the value's low 15 bits. -/
def Obligations.NotIsMaskedTo15Bits : Prop :=
  ∀ (s : State) (dst a : Operand),
    encode (.not dst a) = [14#16, encodeOperand dst, encodeOperand a] ∧ EntersAfter (.not dst a) 3 ∧
    (∀ d va, dst = .reg d → s.value a = some va → ∃ t, exec (.not dst a) s = .next t ∧
      (t.reg d).toNat = 32767 - va.toNat % 32768 ∧ OnlyChanges [.reg d] s t) ∧
    (NoRegister dst → exec (.not dst a) s = .next (s.raise .invalidRegisterTarget)) ∧
    (∀ d, dst = .reg d → s.value a = none → exec (.not dst a) s = .next (s.raise .invalidOperand)) ∧
    (∀ d e va t, dst = .reg d → s.value a = some va → exec (.not dst a) s = .next t →
      ∃ u, exec (.not (.reg e) (.reg d)) t = .next u ∧ (u.reg e).toNat = va.toNat % 32768)

/-- R89: if every operand value of an ALU instruction is below 32768 so is its result, and a result of 32768 or
more arises only from `mod`, `and` or `or`. -/
def Obligations.AluStaysBelow32768 : Prop :=
  ∀ (i : Instr) (s t : State) (d : RegIdx),
    i.opcode ∈ [4, 5, 9, 10, 11, 12, 13, 14] → i.operands.head? = some (.reg d) →
    (∀ o ∈ i.operands.tail, s.value o ≠ none) → exec i s = .next t →
    (i.opcode = 11 → ∀ o ∈ i.operands.drop 2, s.value o ≠ some 0#16) →
    ((∀ o ∈ i.operands.tail, ∀ v, s.value o = some v → v.toNat < 32768) → (t.reg d).toNat < 32768) ∧
    (32768 ≤ (t.reg d).toNat → i.opcode ∈ [11, 12, 13] ∧
      ∃ o ∈ i.operands.tail, ∃ v, s.value o = some v ∧ 32768 ≤ v.toNat)

/-- A binary ALU step read from raw memory words alone (R53, R56, R60, R61, R69 to R73, R90 to R96): the four words at
the pc decide the result, and only the destination, the pc and the step's latches change. -/
def Obligations.BinaryAluStepFromRawWords : Prop :=
  ∀ (s : State) (d : RegIdx) (va vb : Word), AtBoundary s → s.pc.toNat + 3 < 32768 →
    (Memory.read s.mem (s.pc.toNat + 1)).toNat = 32768 + d.val →
    rawValue s (Memory.read s.mem (s.pc.toNat + 2)) = some va →
    rawValue s (Memory.read s.mem (s.pc.toNat + 3)) = some vb →
    ∀ (code : Nat) (r : Nat), (Memory.read s.mem s.pc.toNat).toNat = code →
      (code, r) ∈ [(4, if va = vb then 1 else 0), (5, if va.toNat > vb.toNat then 1 else 0),
        (9, (va.toNat + vb.toNat) % 32768), (10, (va.toNat * vb.toNat) % 32768),
        (12, va.toNat &&& vb.toNat), (13, va.toNat ||| vb.toNat)] →
      ∃ t, step s = .next t ∧ (t.reg d).toNat = r ∧ t.pc.toNat = s.pc.toNat + 4 ∧ t.insnPc = s.pc ∧
        OnlyChanges [.reg d, .pc, .insnPc, .latch] s t

/-- R101, with R99: any 16-bit target is written to the pc without error. -/
def Obligations.JmpWritesThePc : Prop :=
  ∀ (s : State) (target : Operand),
    encode (.jmp target) = [6#16, encodeOperand target] ∧ EntersAfter (.jmp target) 2 ∧
    (∀ a, s.value target = some a → ∃ t, exec (.jmp target) s = .next t ∧ t.pc = a ∧ OnlyChanges [.pc] s t) ∧
    (s.value target = none → exec (.jmp target) s = .next (s.raise .invalidOperand))

/-- R102, R103: both operands are resolved; `jt` jumps on a nonzero condition, `jf` exactly when `jt` does not. -/
def Obligations.ConditionalJumps : Prop :=
  BranchRule .jt 7#16 (fun c => c ≠ 0) ∧ BranchRule .jf 8#16 (fun c => c = 0)

/-- R104, with the capacity of R21: the pushed word is the address after the operand. -/
def Obligations.CallPushesTheReturnAddress : Prop :=
  ∀ (s : State) (target : Operand),
    encode (.call target) = [17#16, encodeOperand target] ∧ EntersAfter (.call target) 2 ∧
    (∀ a, s.value target = some a → s.cfg.stackCapacity ≠ some s.stack.length →
      ∃ t, exec (.call target) s = .next t ∧ t.stack = s.pc :: s.stack ∧ t.pc = a ∧
        OnlyChanges [.stack, .pc] s t) ∧
    (s.value target = none → exec (.call target) s = .next (s.raise .invalidOperand)) ∧
    (∀ a, s.value target = some a → s.cfg.stackCapacity = some s.stack.length →
      exec (.call target) s = .next (s.raise .stackOverflow))

/-- R105, with 90_conflicts.md C1: an empty stack reports `StackUnderflow`. -/
def Obligations.RetPopsThePc : Prop :=
  encode .ret = [18#16] ∧ EntersAfter .ret 1 ∧
  ∀ s : State,
    (∀ v rest, s.stack = v :: rest → ∃ t, exec .ret s = .next t ∧ t.pc = v ∧ t.stack = rest ∧
      OnlyChanges [.stack, .pc] s t) ∧
    (s.stack = [] → exec .ret s = .next (s.raise .stackUnderflow))

/-- A `call` step and then a `ret` step come back to the word after the call's operand, with the stack, registers
and memory as before (R104, R105; source property S7). -/
def Obligations.CallThenRetComesBack : Prop :=
  ∀ (s : State) (target : Operand) (a : Word), AtBoundary s → NextIs (.call target) s → s.value target = some a →
    s.cfg.stackCapacity ≠ some s.stack.length → a.toNat < 32768 → Memory.read s.mem a.toNat = 18#16 →
    ∃ t u, step s = .next t ∧ t.pc = a ∧ t.stack = (s.pc + 2#16) :: s.stack ∧
      step t = .next u ∧ u.pc.toNat = s.pc.toNat + 2 ∧ OnlyChanges [.pc, .insnPc, .latch] s u

/-- R107. -/
def Obligations.RmemReadsOneWord : Prop :=
  ∀ (s : State) (dst addr : Operand),
    encode (.rmem dst addr) = [15#16, encodeOperand dst, encodeOperand addr] ∧ EntersAfter (.rmem dst addr) 3 ∧
    (∀ d ea, dst = .reg d → s.value addr = some ea → ea.toNat < 32768 →
      ∃ t, exec (.rmem dst addr) s = .next t ∧ t.reg d = Memory.read s.mem ea.toNat ∧
        OnlyChanges [.reg d] s t) ∧
    (NoRegister dst → exec (.rmem dst addr) s = .next (s.raise .invalidRegisterTarget)) ∧
    (∀ d, dst = .reg d → s.value addr = none → exec (.rmem dst addr) s = .next (s.raise .invalidOperand)) ∧
    (∀ d ea, dst = .reg d → s.value addr = some ea → 32768 ≤ ea.toNat →
      exec (.rmem dst addr) s = .next (s.raise .memoryAddressOutOfRange))

/-- R108, with R36: one cell is written, the one the value of the first operand names, whatever the list form of
memory holds there; every other cell reads as before. -/
def Obligations.WmemWritesOneWord : Prop :=
  ∀ (s : State) (addr val : Operand),
    encode (.wmem addr val) = [16#16, encodeOperand addr, encodeOperand val] ∧ EntersAfter (.wmem addr val) 3 ∧
    (∀ ea v, s.value addr = some ea → s.value val = some v → ea.toNat < 32768 → Memory.wf s.mem = true →
      ∃ t, exec (.wmem addr val) s = .next t ∧ Memory.read t.mem ea.toNat = v ∧
        OnlyChanges [.cell ea.toNat] s t) ∧
    ((s.value addr = none ∨ s.value val = none) → exec (.wmem addr val) s = .next (s.raise .invalidOperand)) ∧
    (∀ ea v, s.value addr = some ea → s.value val = some v → 32768 ≤ ea.toNat →
      exec (.wmem addr val) s = .next (s.raise .memoryAddressOutOfRange))

/-- R49: a `wmem` step, one that writes its own words too, runs with the words that stood in memory; the next fetch,
at whatever address, sees the word written and the old words elsewhere; and after any further events that do
not write the cell, every fetch, of an opcode or of an operand word, finds the written word there. -/
def Obligations.WmemIsSeenByTheNextFetch : Prop :=
  ∀ (s : State) (addr val : Operand) (ea v : Word), AtBoundary s → Memory.wf s.mem = true →
    NextIs (.wmem addr val) s → s.value addr = some ea → s.value val = some v → ea.toNat < 32768 →
    ∃ t, step s = .next t ∧ t.pc.toNat = s.pc.toNat + 3 ∧ AtBoundary t ∧
      (∀ a, a < 32768 → (wordsAt t.mem a).head? = some (if a = ea.toNat then v else Memory.read s.mem a)) ∧
      ∀ (es : List Event) (u : State), LeavesCell ea.toNat es t → runEvents es t = .next u →
        ∀ k, k < 4 → k ≤ ea.toNat → (wordsAt u.mem (ea.toNat - k))[k]? = some v
end

