-- ==== Sys2Proof/Laws/Decode.lean ====
section
/-! SUPPORT. What the decoder makes of one raw operand word and of one opcode: the facts that proofs about decoding
and fetching cite instead of unfolding `decodeOperand`, `opcodeArity` and `decodeInstr`. -/

namespace Sys2Proof

theorem decodeOperand_lit {w : Word} (h : w.toNat < 32768) : decodeOperand w = .lit w := by simp [decodeOperand, h]

theorem decodeOperand_reg {w : Word} {r : RegIdx} (h : w.toNat = 32768 + r.val) : decodeOperand w = .reg r := by
  have h1 : ¬ w.toNat < 32768 := by omega
  have h2 : w.toNat - 32768 < 8 := by have := r.isLt; omega
  simp only [decodeOperand, h1, h2, if_false, dite_true]
  rw [Operand.reg.injEq]
  apply Fin.ext
  show w.toNat - 32768 = r.val
  omega

theorem decodeOperand_invalid {w : Word} (h : 32776 ≤ w.toNat) : decodeOperand w = .invalid w := by
  have h1 : ¬ w.toNat < 32768 := by omega
  have h2 : ¬ w.toNat - 32768 < 8 := by omega
  simp [decodeOperand, h1, h2]

/-- The three classes of a raw word (R51). -/
theorem decodeOperand_cases (w : Word) :
    (w.toNat < 32768 ∧ decodeOperand w = .lit w) ∨
      (∃ r : RegIdx, w.toNat = 32768 + r.val ∧ decodeOperand w = .reg r) ∨
      (32776 ≤ w.toNat ∧ decodeOperand w = .invalid w) := by
  by_cases h : w.toNat < 32768
  · exact .inl ⟨h, decodeOperand_lit h⟩
  · by_cases h' : w.toNat < 32776
    · refine .inr (.inl ⟨⟨w.toNat - 32768, by omega⟩, ?_, decodeOperand_reg ?_⟩) <;> simp <;> omega
    · exact .inr (.inr ⟨by omega, decodeOperand_invalid (by omega)⟩)

@[simp] theorem encodeOperand_decodeOperand (w : Word) : encodeOperand (decodeOperand w) = w := by
  rcases decodeOperand_cases w with ⟨h, e⟩ | ⟨r, h, e⟩ | ⟨h, e⟩ <;> simp [e, encodeOperand]
  apply BitVec.eq_of_toNat_eq
  simp [h]
  have := r.isLt
  omega

@[simp] theorem decodeOperand_wf (w : Word) : (decodeOperand w).wf = true := by
  rcases decodeOperand_cases w with ⟨h, e⟩ | ⟨r, h, e⟩ | ⟨h, e⟩ <;> simp [e, Operand.wf, h]

theorem decodeOperand_encodeOperand {o : Operand} (h : o.wf = true) : decodeOperand (encodeOperand o) = o := by
  cases o with
  | lit v => exact decodeOperand_lit (by simpa [Operand.wf, encodeOperand] using h)
  | reg r => exact decodeOperand_reg (by simp [encodeOperand]; have := r.isLt; omega)
  | invalid w => exact decodeOperand_invalid (by simpa [Operand.wf, encodeOperand] using h)

theorem opcodeArity_some {c n : Nat} (h : opcodeArity c = some n) : c < 22 ∧ n ≤ 3 := by
  unfold opcodeArity at h
  split at h <;> cases h <;> omega

theorem opcodeArity_none {c : Nat} (h : 22 ≤ c) : opcodeArity c = none := by
  unfold opcodeArity
  split <;> first | omega | rfl

/-- An opcode with an arity decodes, to an instruction with that opcode and arity and the given operand words. -/
theorem decodeInstr_of_arity {c n : Nat} (h : opcodeArity c = some n) (w1 w2 w3 : Word) :
    ∃ i, decodeInstr c w1 w2 w3 = some i ∧ i.opcode = c ∧ i.arity = n ∧
      i.operands.map encodeOperand = [w1, w2, w3].take n := by
  unfold opcodeArity at h
  split at h <;> cases h <;> exact ⟨_, rfl, rfl, rfl, by simp [Instr.operands]⟩

end Sys2Proof
end

