-- ==== Sys2Proof/Laws/Memory.lean ====
section
/-! SUPPORT. What memory's two operations do: a read after a write, and that every write keeps the
canonical form. -/

namespace Sys2Proof.Machine

/-- A cell reads back the word written to it. -/
@[simp] theorem Memory.read_write_same (m : Memory) (a : Nat) (v : Word) :
    ∀ lo, Memory.wfFrom lo m = true → Memory.read (Memory.write m a v) a = v := by
  have below : ∀ (m : Memory) (lo a : Nat), Memory.wfFrom lo m = true → a < lo → Memory.read m a = 0#16 := by
    intro m
    induction m with
    | nil => intros; rfl
    | cons c rest ih =>
      obtain ⟨k, w⟩ := c
      intro lo a h ha
      simp only [Memory.wfFrom, Bool.and_eq_true, decide_eq_true_eq] at h
      have hk : k ≠ a := by omega
      simpa [Memory.read, hk] using ih (k + 1) a h.2 (by omega)
  induction m with
  | nil =>
    intro lo _
    by_cases hv : v = 0#16 <;> simp [Memory.write, Memory.read, hv]
  | cons c rest ih =>
    obtain ⟨k, w⟩ := c
    intro lo h
    simp only [Memory.wfFrom, Bool.and_eq_true, decide_eq_true_eq] at h
    by_cases hlt : a < k
    · have hne : k ≠ a := by omega
      by_cases hv : v = 0#16
      · simpa [Memory.write, Memory.read, hlt, hne, hv] using below rest (k + 1) a h.2 (by omega)
      · simp [Memory.write, Memory.read, hlt, hv]
    · by_cases heq : a = k
      · subst heq
        by_cases hv : v = 0#16
        · simpa [Memory.write, Memory.read, hv] using below rest (a + 1) a h.2 (by omega)
        · simp [Memory.write, Memory.read, hv]
      · have hne : k ≠ a := fun e => heq e.symm
        simpa [Memory.write, Memory.read, hlt, heq, hne] using ih (k + 1) h.2

/-- A write leaves every other cell alone. -/
theorem Memory.read_write_other (m : Memory) {a b : Nat} (v : Word) (hab : b ≠ a) :
    Memory.read (Memory.write m a v) b = Memory.read m b := by
  induction m with
  | nil =>
    by_cases hv : v = 0#16 <;> simp [Memory.write, Memory.read, hv, Ne.symm hab]
  | cons c rest ih =>
    obtain ⟨k, w⟩ := c
    by_cases hlt : a < k
    · by_cases hv : v = 0#16 <;> simp [Memory.write, Memory.read, hlt, hv, Ne.symm hab]
    · by_cases heq : a = k
      · subst heq
        by_cases hv : v = 0#16 <;> simp [Memory.write, Memory.read, hv, Ne.symm hab]
      · by_cases hk : k = b
        · subst hk; simp [Memory.write, Memory.read, hlt, heq]
        · simp [Memory.write, Memory.read, hlt, heq, hk, ih]

/-- The bound a canonical list starts from may be lowered. -/
theorem Memory.wfFrom_mono {m : Memory} {lo lo' : Nat} (h : Memory.wfFrom lo m = true) (hlo : lo' ≤ lo) :
    Memory.wfFrom lo' m = true := by
  cases m with
  | nil => rfl
  | cons c rest =>
    obtain ⟨k, w⟩ := c
    simp only [Memory.wfFrom, Bool.and_eq_true, decide_eq_true_eq] at h ⊢
    exact ⟨⟨⟨by omega, h.1.1.2⟩, h.1.2⟩, h.2⟩

/-- A write at or above the list's bound, below 32768, keeps the list canonical from that bound on. -/
theorem Memory.wfFrom_write {m : Memory} {lo a : Nat} (v : Word) (h : Memory.wfFrom lo m = true)
    (hlo : lo ≤ a) (ha : a < 32768) : Memory.wfFrom lo (Memory.write m a v) = true := by
  induction m generalizing lo with
  | nil =>
    by_cases hv : v = 0#16 <;> simp [Memory.write, Memory.wfFrom, hv, hlo, ha]
  | cons c rest ih =>
    obtain ⟨k, w⟩ := c
    have h' := h
    simp only [Memory.wfFrom, Bool.and_eq_true, decide_eq_true_eq] at h
    obtain ⟨⟨⟨h1, h2⟩, h3⟩, h4⟩ := h
    by_cases hlt : a < k
    · by_cases hv : v = 0#16
      · simpa [Memory.write, hlt, hv] using h'
      · simp only [Memory.write, hlt, hv, if_true, if_false, Memory.wfFrom, Bool.and_eq_true, decide_eq_true_eq]
        exact ⟨⟨⟨hlo, ha⟩, hv⟩, ⟨⟨by omega, h2⟩, h3⟩, h4⟩
    · by_cases heq : a = k
      · subst heq
        by_cases hv : v = 0#16
        · simpa [Memory.write, hv] using Memory.wfFrom_mono h4 (by omega)
        · simp [Memory.write, hv, Memory.wfFrom, h1, h2, h4]
      · simp only [Memory.write, hlt, heq, if_false, Memory.wfFrom, Bool.and_eq_true, decide_eq_true_eq]
        exact ⟨⟨⟨h1, h2⟩, h3⟩, ih h4 (by omega)⟩

/-- A write to an address that names a cell keeps the canonical form. -/
theorem Memory.wf_write {m : Memory} {a : Nat} (v : Word) (h : Memory.wf m = true) (ha : a < 32768) :
    Memory.wf (Memory.write m a v) = true := Memory.wfFrom_write v h (Nat.zero_le a) ha

/-- Writing words that fit keeps the canonical form. -/
theorem Memory.wf_writeAll {m : Memory} {a : Nat} {ws : List Word} (h : Memory.wf m = true)
    (ha : a + ws.length ≤ 32768) : Memory.wf (Memory.writeAll m a ws) = true := by
  induction ws generalizing m a with
  | nil => exact h
  | cons w ws ih =>
    simp only [List.length_cons] at ha
    exact ih (Memory.wf_write w h (by omega)) (by omega)

end Sys2Proof.Machine
end

