-- ==== Sys2Proof/Laws/State.lean ====
section
/-! SUPPORT. One lemma per field per update of State, true by rfl, and the register read through every
update. No later proof unfolds a record update. -/

namespace Sys2Proof.Machine

/-! ### `haltRun` -/

@[simp] theorem State.haltRun_mem (s : State) : (s.haltRun).mem = s.mem := rfl
@[simp] theorem State.haltRun_regs (s : State) : (s.haltRun).regs = s.regs := rfl
@[simp] theorem State.haltRun_stack (s : State) : (s.haltRun).stack = s.stack := rfl
@[simp] theorem State.haltRun_pc (s : State) : (s.haltRun).pc = s.pc := rfl
@[simp] theorem State.haltRun_insnPc (s : State) : (s.haltRun).insnPc = s.insnPc := rfl
@[simp] theorem State.haltRun_runState (s : State) : (s.haltRun).runState = .halted := rfl
@[simp] theorem State.haltRun_halted (s : State) : (s.haltRun).halted = true := rfl
@[simp] theorem State.haltRun_errCode (s : State) : (s.haltRun).errCode = s.errCode := rfl
@[simp] theorem State.haltRun_errPc (s : State) : (s.haltRun).errPc = s.errPc := rfl
@[simp] theorem State.haltRun_errOpcode (s : State) : (s.haltRun).errOpcode = s.errOpcode := rfl
@[simp] theorem State.haltRun_errOpcodeValid (s : State) : (s.haltRun).errOpcodeValid = s.errOpcodeValid := rfl
@[simp] theorem State.haltRun_stopped (s : State) : (s.haltRun).stopped = s.stopped := rfl
@[simp] theorem State.haltRun_latch (s : State) : (s.haltRun).latch = s.latch := rfl
@[simp] theorem State.haltRun_inDest (s : State) : (s.haltRun).inDest = s.inDest := rfl
@[simp] theorem State.haltRun_stopRequest (s : State) : (s.haltRun).stopRequest = s.stopRequest := rfl
@[simp] theorem State.haltRun_termIn (s : State) : (s.haltRun).termIn = s.termIn := rfl
@[simp] theorem State.haltRun_termOut (s : State) : (s.haltRun).termOut = s.termOut := rfl
@[simp] theorem State.haltRun_cfg (s : State) : (s.haltRun).cfg = s.cfg := rfl
@[simp] theorem State.haltRun_reg (s : State) (j : RegIdx) : (s.haltRun).reg j = s.reg j := rfl

/-! ### `startRun` -/

@[simp] theorem State.startRun_mem (s : State) : (s.startRun).mem = s.mem := rfl
@[simp] theorem State.startRun_regs (s : State) : (s.startRun).regs = s.regs := rfl
@[simp] theorem State.startRun_stack (s : State) : (s.startRun).stack = s.stack := rfl
@[simp] theorem State.startRun_pc (s : State) : (s.startRun).pc = s.pc := rfl
@[simp] theorem State.startRun_insnPc (s : State) : (s.startRun).insnPc = s.insnPc := rfl
@[simp] theorem State.startRun_runState (s : State) : (s.startRun).runState = .running := rfl
@[simp] theorem State.startRun_halted (s : State) : (s.startRun).halted = false := rfl
@[simp] theorem State.startRun_errCode (s : State) : (s.startRun).errCode = s.errCode := rfl
@[simp] theorem State.startRun_errPc (s : State) : (s.startRun).errPc = s.errPc := rfl
@[simp] theorem State.startRun_errOpcode (s : State) : (s.startRun).errOpcode = s.errOpcode := rfl
@[simp] theorem State.startRun_errOpcodeValid (s : State) : (s.startRun).errOpcodeValid = s.errOpcodeValid := rfl
@[simp] theorem State.startRun_stopped (s : State) : (s.startRun).stopped = s.stopped := rfl
@[simp] theorem State.startRun_latch (s : State) : (s.startRun).latch = s.latch := rfl
@[simp] theorem State.startRun_inDest (s : State) : (s.startRun).inDest = s.inDest := rfl
@[simp] theorem State.startRun_stopRequest (s : State) : (s.startRun).stopRequest = s.stopRequest := rfl
@[simp] theorem State.startRun_termIn (s : State) : (s.startRun).termIn = s.termIn := rfl
@[simp] theorem State.startRun_termOut (s : State) : (s.startRun).termOut = s.termOut := rfl
@[simp] theorem State.startRun_cfg (s : State) : (s.startRun).cfg = s.cfg := rfl
@[simp] theorem State.startRun_reg (s : State) (j : RegIdx) : (s.startRun).reg j = s.reg j := rfl

/-! ### `stopRun` -/

@[simp] theorem State.stopRun_mem (s : State) : (s.stopRun).mem = s.mem := rfl
@[simp] theorem State.stopRun_regs (s : State) : (s.stopRun).regs = s.regs := rfl
@[simp] theorem State.stopRun_stack (s : State) : (s.stopRun).stack = s.stack := rfl
@[simp] theorem State.stopRun_pc (s : State) : (s.stopRun).pc = s.pc := rfl
@[simp] theorem State.stopRun_insnPc (s : State) : (s.stopRun).insnPc = s.insnPc := rfl
@[simp] theorem State.stopRun_runState (s : State) : (s.stopRun).runState = .halted := rfl
@[simp] theorem State.stopRun_halted (s : State) : (s.stopRun).halted = true := rfl
@[simp] theorem State.stopRun_errCode (s : State) : (s.stopRun).errCode = s.errCode := rfl
@[simp] theorem State.stopRun_errPc (s : State) : (s.stopRun).errPc = s.errPc := rfl
@[simp] theorem State.stopRun_errOpcode (s : State) : (s.stopRun).errOpcode = s.errOpcode := rfl
@[simp] theorem State.stopRun_errOpcodeValid (s : State) : (s.stopRun).errOpcodeValid = s.errOpcodeValid := rfl
@[simp] theorem State.stopRun_stopped (s : State) : (s.stopRun).stopped = true := rfl
@[simp] theorem State.stopRun_latch (s : State) : (s.stopRun).latch = s.latch := rfl
@[simp] theorem State.stopRun_inDest (s : State) : (s.stopRun).inDest = s.inDest := rfl
@[simp] theorem State.stopRun_stopRequest (s : State) : (s.stopRun).stopRequest = s.stopRequest := rfl
@[simp] theorem State.stopRun_termIn (s : State) : (s.stopRun).termIn = s.termIn := rfl
@[simp] theorem State.stopRun_termOut (s : State) : (s.stopRun).termOut = s.termOut := rfl
@[simp] theorem State.stopRun_cfg (s : State) : (s.stopRun).cfg = s.cfg := rfl
@[simp] theorem State.stopRun_reg (s : State) (j : RegIdx) : (s.stopRun).reg j = s.reg j := rfl

/-! ### `memWrite` -/

@[simp] theorem State.memWrite_mem (s : State) (a : Nat) (v : Word) : (s.memWrite a v).mem = Memory.write s.mem a v := rfl
@[simp] theorem State.memWrite_regs (s : State) (a : Nat) (v : Word) : (s.memWrite a v).regs = s.regs := rfl
@[simp] theorem State.memWrite_stack (s : State) (a : Nat) (v : Word) : (s.memWrite a v).stack = s.stack := rfl
@[simp] theorem State.memWrite_pc (s : State) (a : Nat) (v : Word) : (s.memWrite a v).pc = s.pc := rfl
@[simp] theorem State.memWrite_insnPc (s : State) (a : Nat) (v : Word) : (s.memWrite a v).insnPc = s.insnPc := rfl
@[simp] theorem State.memWrite_runState (s : State) (a : Nat) (v : Word) : (s.memWrite a v).runState = s.runState := rfl
@[simp] theorem State.memWrite_halted (s : State) (a : Nat) (v : Word) : (s.memWrite a v).halted = s.halted := rfl
@[simp] theorem State.memWrite_errCode (s : State) (a : Nat) (v : Word) : (s.memWrite a v).errCode = s.errCode := rfl
@[simp] theorem State.memWrite_errPc (s : State) (a : Nat) (v : Word) : (s.memWrite a v).errPc = s.errPc := rfl
@[simp] theorem State.memWrite_errOpcode (s : State) (a : Nat) (v : Word) : (s.memWrite a v).errOpcode = s.errOpcode := rfl
@[simp] theorem State.memWrite_errOpcodeValid (s : State) (a : Nat) (v : Word) : (s.memWrite a v).errOpcodeValid = s.errOpcodeValid := rfl
@[simp] theorem State.memWrite_stopped (s : State) (a : Nat) (v : Word) : (s.memWrite a v).stopped = s.stopped := rfl
@[simp] theorem State.memWrite_latch (s : State) (a : Nat) (v : Word) : (s.memWrite a v).latch = s.latch := rfl
@[simp] theorem State.memWrite_inDest (s : State) (a : Nat) (v : Word) : (s.memWrite a v).inDest = s.inDest := rfl
@[simp] theorem State.memWrite_stopRequest (s : State) (a : Nat) (v : Word) : (s.memWrite a v).stopRequest = s.stopRequest := rfl
@[simp] theorem State.memWrite_termIn (s : State) (a : Nat) (v : Word) : (s.memWrite a v).termIn = s.termIn := rfl
@[simp] theorem State.memWrite_termOut (s : State) (a : Nat) (v : Word) : (s.memWrite a v).termOut = s.termOut := rfl
@[simp] theorem State.memWrite_cfg (s : State) (a : Nat) (v : Word) : (s.memWrite a v).cfg = s.cfg := rfl
@[simp] theorem State.memWrite_reg (s : State) (a : Nat) (v : Word) (j : RegIdx) : (s.memWrite a v).reg j = s.reg j := rfl

/-! ### `setReg` -/

@[simp] theorem State.setReg_mem (s : State) (r : RegIdx) (v : Word) : (s.setReg r v).mem = s.mem := rfl
@[simp] theorem State.setReg_regs (s : State) (r : RegIdx) (v : Word) : (s.setReg r v).regs = s.regs.set r.val v := rfl
@[simp] theorem State.setReg_stack (s : State) (r : RegIdx) (v : Word) : (s.setReg r v).stack = s.stack := rfl
@[simp] theorem State.setReg_pc (s : State) (r : RegIdx) (v : Word) : (s.setReg r v).pc = s.pc := rfl
@[simp] theorem State.setReg_insnPc (s : State) (r : RegIdx) (v : Word) : (s.setReg r v).insnPc = s.insnPc := rfl
@[simp] theorem State.setReg_runState (s : State) (r : RegIdx) (v : Word) : (s.setReg r v).runState = s.runState := rfl
@[simp] theorem State.setReg_halted (s : State) (r : RegIdx) (v : Word) : (s.setReg r v).halted = s.halted := rfl
@[simp] theorem State.setReg_errCode (s : State) (r : RegIdx) (v : Word) : (s.setReg r v).errCode = s.errCode := rfl
@[simp] theorem State.setReg_errPc (s : State) (r : RegIdx) (v : Word) : (s.setReg r v).errPc = s.errPc := rfl
@[simp] theorem State.setReg_errOpcode (s : State) (r : RegIdx) (v : Word) : (s.setReg r v).errOpcode = s.errOpcode := rfl
@[simp] theorem State.setReg_errOpcodeValid (s : State) (r : RegIdx) (v : Word) : (s.setReg r v).errOpcodeValid = s.errOpcodeValid := rfl
@[simp] theorem State.setReg_stopped (s : State) (r : RegIdx) (v : Word) : (s.setReg r v).stopped = s.stopped := rfl
@[simp] theorem State.setReg_latch (s : State) (r : RegIdx) (v : Word) : (s.setReg r v).latch = s.latch := rfl
@[simp] theorem State.setReg_inDest (s : State) (r : RegIdx) (v : Word) : (s.setReg r v).inDest = s.inDest := rfl
@[simp] theorem State.setReg_stopRequest (s : State) (r : RegIdx) (v : Word) : (s.setReg r v).stopRequest = s.stopRequest := rfl
@[simp] theorem State.setReg_termIn (s : State) (r : RegIdx) (v : Word) : (s.setReg r v).termIn = s.termIn := rfl
@[simp] theorem State.setReg_termOut (s : State) (r : RegIdx) (v : Word) : (s.setReg r v).termOut = s.termOut := rfl
@[simp] theorem State.setReg_cfg (s : State) (r : RegIdx) (v : Word) : (s.setReg r v).cfg = s.cfg := rfl

/-! ### `setPc` -/

@[simp] theorem State.setPc_mem (s : State) (t : Word) : (s.setPc t).mem = s.mem := rfl
@[simp] theorem State.setPc_regs (s : State) (t : Word) : (s.setPc t).regs = s.regs := rfl
@[simp] theorem State.setPc_stack (s : State) (t : Word) : (s.setPc t).stack = s.stack := rfl
@[simp] theorem State.setPc_pc (s : State) (t : Word) : (s.setPc t).pc = t := rfl
@[simp] theorem State.setPc_insnPc (s : State) (t : Word) : (s.setPc t).insnPc = s.insnPc := rfl
@[simp] theorem State.setPc_runState (s : State) (t : Word) : (s.setPc t).runState = s.runState := rfl
@[simp] theorem State.setPc_halted (s : State) (t : Word) : (s.setPc t).halted = s.halted := rfl
@[simp] theorem State.setPc_errCode (s : State) (t : Word) : (s.setPc t).errCode = s.errCode := rfl
@[simp] theorem State.setPc_errPc (s : State) (t : Word) : (s.setPc t).errPc = s.errPc := rfl
@[simp] theorem State.setPc_errOpcode (s : State) (t : Word) : (s.setPc t).errOpcode = s.errOpcode := rfl
@[simp] theorem State.setPc_errOpcodeValid (s : State) (t : Word) : (s.setPc t).errOpcodeValid = s.errOpcodeValid := rfl
@[simp] theorem State.setPc_stopped (s : State) (t : Word) : (s.setPc t).stopped = s.stopped := rfl
@[simp] theorem State.setPc_latch (s : State) (t : Word) : (s.setPc t).latch = s.latch := rfl
@[simp] theorem State.setPc_inDest (s : State) (t : Word) : (s.setPc t).inDest = s.inDest := rfl
@[simp] theorem State.setPc_stopRequest (s : State) (t : Word) : (s.setPc t).stopRequest = s.stopRequest := rfl
@[simp] theorem State.setPc_termIn (s : State) (t : Word) : (s.setPc t).termIn = s.termIn := rfl
@[simp] theorem State.setPc_termOut (s : State) (t : Word) : (s.setPc t).termOut = s.termOut := rfl
@[simp] theorem State.setPc_cfg (s : State) (t : Word) : (s.setPc t).cfg = s.cfg := rfl
@[simp] theorem State.setPc_reg (s : State) (t : Word) (j : RegIdx) : (s.setPc t).reg j = s.reg j := rfl

/-! ### `stackPush` -/

@[simp] theorem State.stackPush_mem (s : State) (v : Word) : (s.stackPush v).mem = s.mem := rfl
@[simp] theorem State.stackPush_regs (s : State) (v : Word) : (s.stackPush v).regs = s.regs := rfl
@[simp] theorem State.stackPush_stack (s : State) (v : Word) : (s.stackPush v).stack = v :: s.stack := rfl
@[simp] theorem State.stackPush_pc (s : State) (v : Word) : (s.stackPush v).pc = s.pc := rfl
@[simp] theorem State.stackPush_insnPc (s : State) (v : Word) : (s.stackPush v).insnPc = s.insnPc := rfl
@[simp] theorem State.stackPush_runState (s : State) (v : Word) : (s.stackPush v).runState = s.runState := rfl
@[simp] theorem State.stackPush_halted (s : State) (v : Word) : (s.stackPush v).halted = s.halted := rfl
@[simp] theorem State.stackPush_errCode (s : State) (v : Word) : (s.stackPush v).errCode = s.errCode := rfl
@[simp] theorem State.stackPush_errPc (s : State) (v : Word) : (s.stackPush v).errPc = s.errPc := rfl
@[simp] theorem State.stackPush_errOpcode (s : State) (v : Word) : (s.stackPush v).errOpcode = s.errOpcode := rfl
@[simp] theorem State.stackPush_errOpcodeValid (s : State) (v : Word) : (s.stackPush v).errOpcodeValid = s.errOpcodeValid := rfl
@[simp] theorem State.stackPush_stopped (s : State) (v : Word) : (s.stackPush v).stopped = s.stopped := rfl
@[simp] theorem State.stackPush_latch (s : State) (v : Word) : (s.stackPush v).latch = s.latch := rfl
@[simp] theorem State.stackPush_inDest (s : State) (v : Word) : (s.stackPush v).inDest = s.inDest := rfl
@[simp] theorem State.stackPush_stopRequest (s : State) (v : Word) : (s.stackPush v).stopRequest = s.stopRequest := rfl
@[simp] theorem State.stackPush_termIn (s : State) (v : Word) : (s.stackPush v).termIn = s.termIn := rfl
@[simp] theorem State.stackPush_termOut (s : State) (v : Word) : (s.stackPush v).termOut = s.termOut := rfl
@[simp] theorem State.stackPush_cfg (s : State) (v : Word) : (s.stackPush v).cfg = s.cfg := rfl
@[simp] theorem State.stackPush_reg (s : State) (v : Word) (j : RegIdx) : (s.stackPush v).reg j = s.reg j := rfl

/-! ### `setStack` -/

@[simp] theorem State.setStack_mem (s : State) (st : List Word) : (s.setStack st).mem = s.mem := rfl
@[simp] theorem State.setStack_regs (s : State) (st : List Word) : (s.setStack st).regs = s.regs := rfl
@[simp] theorem State.setStack_stack (s : State) (st : List Word) : (s.setStack st).stack = st := rfl
@[simp] theorem State.setStack_pc (s : State) (st : List Word) : (s.setStack st).pc = s.pc := rfl
@[simp] theorem State.setStack_insnPc (s : State) (st : List Word) : (s.setStack st).insnPc = s.insnPc := rfl
@[simp] theorem State.setStack_runState (s : State) (st : List Word) : (s.setStack st).runState = s.runState := rfl
@[simp] theorem State.setStack_halted (s : State) (st : List Word) : (s.setStack st).halted = s.halted := rfl
@[simp] theorem State.setStack_errCode (s : State) (st : List Word) : (s.setStack st).errCode = s.errCode := rfl
@[simp] theorem State.setStack_errPc (s : State) (st : List Word) : (s.setStack st).errPc = s.errPc := rfl
@[simp] theorem State.setStack_errOpcode (s : State) (st : List Word) : (s.setStack st).errOpcode = s.errOpcode := rfl
@[simp] theorem State.setStack_errOpcodeValid (s : State) (st : List Word) : (s.setStack st).errOpcodeValid = s.errOpcodeValid := rfl
@[simp] theorem State.setStack_stopped (s : State) (st : List Word) : (s.setStack st).stopped = s.stopped := rfl
@[simp] theorem State.setStack_latch (s : State) (st : List Word) : (s.setStack st).latch = s.latch := rfl
@[simp] theorem State.setStack_inDest (s : State) (st : List Word) : (s.setStack st).inDest = s.inDest := rfl
@[simp] theorem State.setStack_stopRequest (s : State) (st : List Word) : (s.setStack st).stopRequest = s.stopRequest := rfl
@[simp] theorem State.setStack_termIn (s : State) (st : List Word) : (s.setStack st).termIn = s.termIn := rfl
@[simp] theorem State.setStack_termOut (s : State) (st : List Word) : (s.setStack st).termOut = s.termOut := rfl
@[simp] theorem State.setStack_cfg (s : State) (st : List Word) : (s.setStack st).cfg = s.cfg := rfl
@[simp] theorem State.setStack_reg (s : State) (st : List Word) (j : RegIdx) : (s.setStack st).reg j = s.reg j := rfl

/-! ### `takeInput` -/

@[simp] theorem State.takeInput_mem (s : State) (c : Word) (rest : List Word) : (s.takeInput c rest).mem = s.mem := rfl
@[simp] theorem State.takeInput_regs (s : State) (c : Word) (rest : List Word) : (s.takeInput c rest).regs = s.regs.set s.inDest.val c := rfl
@[simp] theorem State.takeInput_stack (s : State) (c : Word) (rest : List Word) : (s.takeInput c rest).stack = s.stack := rfl
@[simp] theorem State.takeInput_pc (s : State) (c : Word) (rest : List Word) : (s.takeInput c rest).pc = s.pc := rfl
@[simp] theorem State.takeInput_insnPc (s : State) (c : Word) (rest : List Word) : (s.takeInput c rest).insnPc = s.insnPc := rfl
@[simp] theorem State.takeInput_runState (s : State) (c : Word) (rest : List Word) : (s.takeInput c rest).runState = .running := rfl
@[simp] theorem State.takeInput_halted (s : State) (c : Word) (rest : List Word) : (s.takeInput c rest).halted = s.halted := rfl
@[simp] theorem State.takeInput_errCode (s : State) (c : Word) (rest : List Word) : (s.takeInput c rest).errCode = s.errCode := rfl
@[simp] theorem State.takeInput_errPc (s : State) (c : Word) (rest : List Word) : (s.takeInput c rest).errPc = s.errPc := rfl
@[simp] theorem State.takeInput_errOpcode (s : State) (c : Word) (rest : List Word) : (s.takeInput c rest).errOpcode = s.errOpcode := rfl
@[simp] theorem State.takeInput_errOpcodeValid (s : State) (c : Word) (rest : List Word) : (s.takeInput c rest).errOpcodeValid = s.errOpcodeValid := rfl
@[simp] theorem State.takeInput_stopped (s : State) (c : Word) (rest : List Word) : (s.takeInput c rest).stopped = s.stopped := rfl
@[simp] theorem State.takeInput_latch (s : State) (c : Word) (rest : List Word) : (s.takeInput c rest).latch = s.latch := rfl
@[simp] theorem State.takeInput_inDest (s : State) (c : Word) (rest : List Word) : (s.takeInput c rest).inDest = 0 := rfl
@[simp] theorem State.takeInput_stopRequest (s : State) (c : Word) (rest : List Word) : (s.takeInput c rest).stopRequest = s.stopRequest := rfl
@[simp] theorem State.takeInput_termIn (s : State) (c : Word) (rest : List Word) : (s.takeInput c rest).termIn = rest := rfl
@[simp] theorem State.takeInput_termOut (s : State) (c : Word) (rest : List Word) : (s.takeInput c rest).termOut = s.termOut := rfl
@[simp] theorem State.takeInput_cfg (s : State) (c : Word) (rest : List Word) : (s.takeInput c rest).cfg = s.cfg := rfl

/-! ### `termWrite` -/

@[simp] theorem State.termWrite_mem (s : State) (c : Word) : (s.termWrite c).mem = s.mem := rfl
@[simp] theorem State.termWrite_regs (s : State) (c : Word) : (s.termWrite c).regs = s.regs := rfl
@[simp] theorem State.termWrite_stack (s : State) (c : Word) : (s.termWrite c).stack = s.stack := rfl
@[simp] theorem State.termWrite_pc (s : State) (c : Word) : (s.termWrite c).pc = s.pc := rfl
@[simp] theorem State.termWrite_insnPc (s : State) (c : Word) : (s.termWrite c).insnPc = s.insnPc := rfl
@[simp] theorem State.termWrite_runState (s : State) (c : Word) : (s.termWrite c).runState = s.runState := rfl
@[simp] theorem State.termWrite_halted (s : State) (c : Word) : (s.termWrite c).halted = s.halted := rfl
@[simp] theorem State.termWrite_errCode (s : State) (c : Word) : (s.termWrite c).errCode = s.errCode := rfl
@[simp] theorem State.termWrite_errPc (s : State) (c : Word) : (s.termWrite c).errPc = s.errPc := rfl
@[simp] theorem State.termWrite_errOpcode (s : State) (c : Word) : (s.termWrite c).errOpcode = s.errOpcode := rfl
@[simp] theorem State.termWrite_errOpcodeValid (s : State) (c : Word) : (s.termWrite c).errOpcodeValid = s.errOpcodeValid := rfl
@[simp] theorem State.termWrite_stopped (s : State) (c : Word) : (s.termWrite c).stopped = s.stopped := rfl
@[simp] theorem State.termWrite_latch (s : State) (c : Word) : (s.termWrite c).latch = s.latch := rfl
@[simp] theorem State.termWrite_inDest (s : State) (c : Word) : (s.termWrite c).inDest = s.inDest := rfl
@[simp] theorem State.termWrite_stopRequest (s : State) (c : Word) : (s.termWrite c).stopRequest = s.stopRequest := rfl
@[simp] theorem State.termWrite_termIn (s : State) (c : Word) : (s.termWrite c).termIn = s.termIn := rfl
@[simp] theorem State.termWrite_termOut (s : State) (c : Word) : (s.termWrite c).termOut = s.termOut ++ [c] := rfl
@[simp] theorem State.termWrite_cfg (s : State) (c : Word) : (s.termWrite c).cfg = s.cfg := rfl
@[simp] theorem State.termWrite_reg (s : State) (c : Word) (j : RegIdx) : (s.termWrite c).reg j = s.reg j := rfl

/-! ### `raise` -/

@[simp] theorem State.raise_mem (s : State) (e : FatalError) : (s.raise e).mem = s.mem := rfl
@[simp] theorem State.raise_regs (s : State) (e : FatalError) : (s.raise e).regs = s.regs := rfl
@[simp] theorem State.raise_stack (s : State) (e : FatalError) : (s.raise e).stack = s.stack := rfl
@[simp] theorem State.raise_pc (s : State) (e : FatalError) : (s.raise e).pc = s.insnPc := rfl
@[simp] theorem State.raise_insnPc (s : State) (e : FatalError) : (s.raise e).insnPc = s.insnPc := rfl
@[simp] theorem State.raise_runState (s : State) (e : FatalError) : (s.raise e).runState = .halted := rfl
@[simp] theorem State.raise_halted (s : State) (e : FatalError) : (s.raise e).halted = true := rfl
@[simp] theorem State.raise_errCode (s : State) (e : FatalError) : (s.raise e).errCode = e.code := rfl
@[simp] theorem State.raise_errPc (s : State) (e : FatalError) : (s.raise e).errPc = s.insnPc := rfl
@[simp] theorem State.raise_errOpcode (s : State) (e : FatalError) : (s.raise e).errOpcode = if s.latch.opFetched then s.latch.op else 0#16 := rfl
@[simp] theorem State.raise_errOpcodeValid (s : State) (e : FatalError) : (s.raise e).errOpcodeValid = s.latch.opFetched := rfl
@[simp] theorem State.raise_stopped (s : State) (e : FatalError) : (s.raise e).stopped = s.stopped := rfl
@[simp] theorem State.raise_latch (s : State) (e : FatalError) : (s.raise e).latch = s.latch := rfl
@[simp] theorem State.raise_inDest (s : State) (e : FatalError) : (s.raise e).inDest = s.inDest := rfl
@[simp] theorem State.raise_stopRequest (s : State) (e : FatalError) : (s.raise e).stopRequest = s.stopRequest := rfl
@[simp] theorem State.raise_termIn (s : State) (e : FatalError) : (s.raise e).termIn = s.termIn := rfl
@[simp] theorem State.raise_termOut (s : State) (e : FatalError) : (s.raise e).termOut = s.termOut := rfl
@[simp] theorem State.raise_cfg (s : State) (e : FatalError) : (s.raise e).cfg = s.cfg := rfl
@[simp] theorem State.raise_reg (s : State) (e : FatalError) (j : RegIdx) : (s.raise e).reg j = s.reg j := rfl

/-! ### `beginWait` -/

@[simp] theorem State.beginWait_mem (s : State) (d : RegIdx) : (s.beginWait d).mem = s.mem := rfl
@[simp] theorem State.beginWait_regs (s : State) (d : RegIdx) : (s.beginWait d).regs = s.regs := rfl
@[simp] theorem State.beginWait_stack (s : State) (d : RegIdx) : (s.beginWait d).stack = s.stack := rfl
@[simp] theorem State.beginWait_pc (s : State) (d : RegIdx) : (s.beginWait d).pc = s.pc := rfl
@[simp] theorem State.beginWait_insnPc (s : State) (d : RegIdx) : (s.beginWait d).insnPc = s.insnPc := rfl
@[simp] theorem State.beginWait_runState (s : State) (d : RegIdx) : (s.beginWait d).runState = .waitInput := rfl
@[simp] theorem State.beginWait_halted (s : State) (d : RegIdx) : (s.beginWait d).halted = s.halted := rfl
@[simp] theorem State.beginWait_errCode (s : State) (d : RegIdx) : (s.beginWait d).errCode = s.errCode := rfl
@[simp] theorem State.beginWait_errPc (s : State) (d : RegIdx) : (s.beginWait d).errPc = s.errPc := rfl
@[simp] theorem State.beginWait_errOpcode (s : State) (d : RegIdx) : (s.beginWait d).errOpcode = s.errOpcode := rfl
@[simp] theorem State.beginWait_errOpcodeValid (s : State) (d : RegIdx) : (s.beginWait d).errOpcodeValid = s.errOpcodeValid := rfl
@[simp] theorem State.beginWait_stopped (s : State) (d : RegIdx) : (s.beginWait d).stopped = s.stopped := rfl
@[simp] theorem State.beginWait_latch (s : State) (d : RegIdx) : (s.beginWait d).latch = s.latch := rfl
@[simp] theorem State.beginWait_inDest (s : State) (d : RegIdx) : (s.beginWait d).inDest = d := rfl
@[simp] theorem State.beginWait_stopRequest (s : State) (d : RegIdx) : (s.beginWait d).stopRequest = s.stopRequest := rfl
@[simp] theorem State.beginWait_termIn (s : State) (d : RegIdx) : (s.beginWait d).termIn = s.termIn := rfl
@[simp] theorem State.beginWait_termOut (s : State) (d : RegIdx) : (s.beginWait d).termOut = s.termOut := rfl
@[simp] theorem State.beginWait_cfg (s : State) (d : RegIdx) : (s.beginWait d).cfg = s.cfg := rfl
@[simp] theorem State.beginWait_reg (s : State) (d : RegIdx) (j : RegIdx) : (s.beginWait d).reg j = s.reg j := rfl

/-! ### `beginStep` -/

@[simp] theorem State.beginStep_mem (s : State) : (s.beginStep).mem = s.mem := rfl
@[simp] theorem State.beginStep_regs (s : State) : (s.beginStep).regs = s.regs := rfl
@[simp] theorem State.beginStep_stack (s : State) : (s.beginStep).stack = s.stack := rfl
@[simp] theorem State.beginStep_pc (s : State) : (s.beginStep).pc = s.pc := rfl
@[simp] theorem State.beginStep_insnPc (s : State) : (s.beginStep).insnPc = s.pc := rfl
@[simp] theorem State.beginStep_runState (s : State) : (s.beginStep).runState = s.runState := rfl
@[simp] theorem State.beginStep_halted (s : State) : (s.beginStep).halted = s.halted := rfl
@[simp] theorem State.beginStep_errCode (s : State) : (s.beginStep).errCode = s.errCode := rfl
@[simp] theorem State.beginStep_errPc (s : State) : (s.beginStep).errPc = s.errPc := rfl
@[simp] theorem State.beginStep_errOpcode (s : State) : (s.beginStep).errOpcode = s.errOpcode := rfl
@[simp] theorem State.beginStep_errOpcodeValid (s : State) : (s.beginStep).errOpcodeValid = s.errOpcodeValid := rfl
@[simp] theorem State.beginStep_stopped (s : State) : (s.beginStep).stopped = s.stopped := rfl
@[simp] theorem State.beginStep_latch (s : State) : (s.beginStep).latch = Latches.clear := rfl
@[simp] theorem State.beginStep_inDest (s : State) : (s.beginStep).inDest = s.inDest := rfl
@[simp] theorem State.beginStep_stopRequest (s : State) : (s.beginStep).stopRequest = s.stopRequest := rfl
@[simp] theorem State.beginStep_termIn (s : State) : (s.beginStep).termIn = s.termIn := rfl
@[simp] theorem State.beginStep_termOut (s : State) : (s.beginStep).termOut = s.termOut := rfl
@[simp] theorem State.beginStep_cfg (s : State) : (s.beginStep).cfg = s.cfg := rfl
@[simp] theorem State.beginStep_reg (s : State) (j : RegIdx) : (s.beginStep).reg j = s.reg j := rfl

/-! ### `endStep` -/

@[simp] theorem State.endStep_mem (s : State) : (s.endStep).mem = s.mem := rfl
@[simp] theorem State.endStep_regs (s : State) : (s.endStep).regs = s.regs := rfl
@[simp] theorem State.endStep_stack (s : State) : (s.endStep).stack = s.stack := rfl
@[simp] theorem State.endStep_pc (s : State) : (s.endStep).pc = s.pc := rfl
@[simp] theorem State.endStep_insnPc (s : State) : (s.endStep).insnPc = s.insnPc := rfl
@[simp] theorem State.endStep_runState (s : State) : (s.endStep).runState = s.runState := rfl
@[simp] theorem State.endStep_halted (s : State) : (s.endStep).halted = s.halted := rfl
@[simp] theorem State.endStep_errCode (s : State) : (s.endStep).errCode = s.errCode := rfl
@[simp] theorem State.endStep_errPc (s : State) : (s.endStep).errPc = s.errPc := rfl
@[simp] theorem State.endStep_errOpcode (s : State) : (s.endStep).errOpcode = s.errOpcode := rfl
@[simp] theorem State.endStep_errOpcodeValid (s : State) : (s.endStep).errOpcodeValid = s.errOpcodeValid := rfl
@[simp] theorem State.endStep_stopped (s : State) : (s.endStep).stopped = s.stopped := rfl
@[simp] theorem State.endStep_latch (s : State) : (s.endStep).latch = Latches.clear := rfl
@[simp] theorem State.endStep_inDest (s : State) : (s.endStep).inDest = s.inDest := rfl
@[simp] theorem State.endStep_stopRequest (s : State) : (s.endStep).stopRequest = s.stopRequest := rfl
@[simp] theorem State.endStep_termIn (s : State) : (s.endStep).termIn = s.termIn := rfl
@[simp] theorem State.endStep_termOut (s : State) : (s.endStep).termOut = s.termOut := rfl
@[simp] theorem State.endStep_cfg (s : State) : (s.endStep).cfg = s.cfg := rfl
@[simp] theorem State.endStep_reg (s : State) (j : RegIdx) : (s.endStep).reg j = s.reg j := rfl

/-! ### `latchOpcode` -/

@[simp] theorem State.latchOpcode_mem (s : State) (op : Word) : (s.latchOpcode op).mem = s.mem := rfl
@[simp] theorem State.latchOpcode_regs (s : State) (op : Word) : (s.latchOpcode op).regs = s.regs := rfl
@[simp] theorem State.latchOpcode_stack (s : State) (op : Word) : (s.latchOpcode op).stack = s.stack := rfl
@[simp] theorem State.latchOpcode_pc (s : State) (op : Word) : (s.latchOpcode op).pc = s.pc := rfl
@[simp] theorem State.latchOpcode_insnPc (s : State) (op : Word) : (s.latchOpcode op).insnPc = s.insnPc := rfl
@[simp] theorem State.latchOpcode_runState (s : State) (op : Word) : (s.latchOpcode op).runState = s.runState := rfl
@[simp] theorem State.latchOpcode_halted (s : State) (op : Word) : (s.latchOpcode op).halted = s.halted := rfl
@[simp] theorem State.latchOpcode_errCode (s : State) (op : Word) : (s.latchOpcode op).errCode = s.errCode := rfl
@[simp] theorem State.latchOpcode_errPc (s : State) (op : Word) : (s.latchOpcode op).errPc = s.errPc := rfl
@[simp] theorem State.latchOpcode_errOpcode (s : State) (op : Word) : (s.latchOpcode op).errOpcode = s.errOpcode := rfl
@[simp] theorem State.latchOpcode_errOpcodeValid (s : State) (op : Word) : (s.latchOpcode op).errOpcodeValid = s.errOpcodeValid := rfl
@[simp] theorem State.latchOpcode_stopped (s : State) (op : Word) : (s.latchOpcode op).stopped = s.stopped := rfl
@[simp] theorem State.latchOpcode_latch (s : State) (op : Word) : (s.latchOpcode op).latch = { s.latch with op := op, opFetched := true } := rfl
@[simp] theorem State.latchOpcode_inDest (s : State) (op : Word) : (s.latchOpcode op).inDest = s.inDest := rfl
@[simp] theorem State.latchOpcode_stopRequest (s : State) (op : Word) : (s.latchOpcode op).stopRequest = s.stopRequest := rfl
@[simp] theorem State.latchOpcode_termIn (s : State) (op : Word) : (s.latchOpcode op).termIn = s.termIn := rfl
@[simp] theorem State.latchOpcode_termOut (s : State) (op : Word) : (s.latchOpcode op).termOut = s.termOut := rfl
@[simp] theorem State.latchOpcode_cfg (s : State) (op : Word) : (s.latchOpcode op).cfg = s.cfg := rfl
@[simp] theorem State.latchOpcode_reg (s : State) (op : Word) (j : RegIdx) : (s.latchOpcode op).reg j = s.reg j := rfl

/-! ### `fetched` -/

@[simp] theorem State.fetched_mem (s : State) (i : Instr) : (s.fetched i).mem = s.mem := rfl
@[simp] theorem State.fetched_regs (s : State) (i : Instr) : (s.fetched i).regs = s.regs := rfl
@[simp] theorem State.fetched_stack (s : State) (i : Instr) : (s.fetched i).stack = s.stack := rfl
@[simp] theorem State.fetched_pc (s : State) (i : Instr) : (s.fetched i).pc = s.pc + BitVec.ofNat 16 (1 + i.arity) := rfl
@[simp] theorem State.fetched_insnPc (s : State) (i : Instr) : (s.fetched i).insnPc = s.pc := rfl
@[simp] theorem State.fetched_runState (s : State) (i : Instr) : (s.fetched i).runState = s.runState := rfl
@[simp] theorem State.fetched_halted (s : State) (i : Instr) : (s.fetched i).halted = s.halted := rfl
@[simp] theorem State.fetched_errCode (s : State) (i : Instr) : (s.fetched i).errCode = s.errCode := rfl
@[simp] theorem State.fetched_errPc (s : State) (i : Instr) : (s.fetched i).errPc = s.errPc := rfl
@[simp] theorem State.fetched_errOpcode (s : State) (i : Instr) : (s.fetched i).errOpcode = s.errOpcode := rfl
@[simp] theorem State.fetched_errOpcodeValid (s : State) (i : Instr) : (s.fetched i).errOpcodeValid = s.errOpcodeValid := rfl
@[simp] theorem State.fetched_stopped (s : State) (i : Instr) : (s.fetched i).stopped = s.stopped := rfl
@[simp] theorem State.fetched_inDest (s : State) (i : Instr) : (s.fetched i).inDest = s.inDest := rfl
@[simp] theorem State.fetched_stopRequest (s : State) (i : Instr) : (s.fetched i).stopRequest = s.stopRequest := rfl
@[simp] theorem State.fetched_termIn (s : State) (i : Instr) : (s.fetched i).termIn = s.termIn := rfl
@[simp] theorem State.fetched_termOut (s : State) (i : Instr) : (s.fetched i).termOut = s.termOut := rfl
@[simp] theorem State.fetched_cfg (s : State) (i : Instr) : (s.fetched i).cfg = s.cfg := rfl
@[simp] theorem State.fetched_reg (s : State) (i : Instr) (j : RegIdx) : (s.fetched i).reg j = s.reg j := rfl

/-! ### `supplyInput` -/

@[simp] theorem State.supplyInput_mem (s : State) (cs : List Word) : (s.supplyInput cs).mem = s.mem := rfl
@[simp] theorem State.supplyInput_regs (s : State) (cs : List Word) : (s.supplyInput cs).regs = s.regs := rfl
@[simp] theorem State.supplyInput_stack (s : State) (cs : List Word) : (s.supplyInput cs).stack = s.stack := rfl
@[simp] theorem State.supplyInput_pc (s : State) (cs : List Word) : (s.supplyInput cs).pc = s.pc := rfl
@[simp] theorem State.supplyInput_insnPc (s : State) (cs : List Word) : (s.supplyInput cs).insnPc = s.insnPc := rfl
@[simp] theorem State.supplyInput_runState (s : State) (cs : List Word) : (s.supplyInput cs).runState = s.runState := rfl
@[simp] theorem State.supplyInput_halted (s : State) (cs : List Word) : (s.supplyInput cs).halted = s.halted := rfl
@[simp] theorem State.supplyInput_errCode (s : State) (cs : List Word) : (s.supplyInput cs).errCode = s.errCode := rfl
@[simp] theorem State.supplyInput_errPc (s : State) (cs : List Word) : (s.supplyInput cs).errPc = s.errPc := rfl
@[simp] theorem State.supplyInput_errOpcode (s : State) (cs : List Word) : (s.supplyInput cs).errOpcode = s.errOpcode := rfl
@[simp] theorem State.supplyInput_errOpcodeValid (s : State) (cs : List Word) : (s.supplyInput cs).errOpcodeValid = s.errOpcodeValid := rfl
@[simp] theorem State.supplyInput_stopped (s : State) (cs : List Word) : (s.supplyInput cs).stopped = s.stopped := rfl
@[simp] theorem State.supplyInput_latch (s : State) (cs : List Word) : (s.supplyInput cs).latch = s.latch := rfl
@[simp] theorem State.supplyInput_inDest (s : State) (cs : List Word) : (s.supplyInput cs).inDest = s.inDest := rfl
@[simp] theorem State.supplyInput_stopRequest (s : State) (cs : List Word) : (s.supplyInput cs).stopRequest = s.stopRequest := rfl
@[simp] theorem State.supplyInput_termIn (s : State) (cs : List Word) : (s.supplyInput cs).termIn = s.termIn ++ cs := rfl
@[simp] theorem State.supplyInput_termOut (s : State) (cs : List Word) : (s.supplyInput cs).termOut = s.termOut := rfl
@[simp] theorem State.supplyInput_cfg (s : State) (cs : List Word) : (s.supplyInput cs).cfg = s.cfg := rfl
@[simp] theorem State.supplyInput_reg (s : State) (cs : List Word) (j : RegIdx) : (s.supplyInput cs).reg j = s.reg j := rfl

/-! ### Registers -/

/-- A register reads back what was written to it. -/
@[simp] theorem State.reg_setReg_same (s : State) (r : RegIdx) (v : Word) : (s.setReg r v).reg r = v := by
  simp [State.reg]

/-- A write to one register leaves every other alone. -/
theorem State.reg_setReg_other (s : State) {r i : RegIdx} (h : i ≠ r) (v : Word) :
    (s.setReg r v).reg i = s.reg i := by
  have hv : r.val ≠ i.val := fun e => h (Fin.ext e.symm)
  simp [State.reg, hv]

/-! ### The completion of a waiting `in` -/

theorem State.tryInput_of_nil {s : State} (h : s.termIn = []) : s.tryInput = s := by
  simp [State.tryInput, h]

theorem State.tryInput_of_cons {s : State} {c : Word} {rest : List Word} (h : s.termIn = c :: rest) :
    s.tryInput = s.takeInput c rest := by
  simp [State.tryInput, h]

end Sys2Proof.Machine
end

