-- ==== Sys2Proof/Laws/Ops.lean ====
section
/-! SUPPORT. What each shared operation of the meanings can answer, said once: it goes on with what it
resolved, or it takes one fatal error; and what the step adds around a meaning. -/

namespace Sys2Proof.Machine

/-- A value operand either resolves or ends the step with `InvalidOperand`. -/
theorem withValue_next {o : Operand} {s t : State} {k : Word → Answer} (h : withValue o s k = .next t) :
    (∃ v, s.value o = some v ∧ k v = .next t) ∨ (s.value o = none ∧ t = s.raise .invalidOperand) := by
  unfold withValue fatal at h
  cases hv : s.value o with
  | none => rw [hv] at h; cases h; exact .inr ⟨rfl, rfl⟩
  | some v => rw [hv] at h; exact .inl ⟨v, rfl, h⟩

/-- A destination operand either names a register or ends the step with `InvalidRegisterTarget`. -/
theorem withDest_next {o : Operand} {s t : State} {k : RegIdx → Answer} (h : withDest o s k = .next t) :
    (∃ d, o = .reg d ∧ k d = .next t) ∨ (destOf o = none ∧ t = s.raise .invalidRegisterTarget) := by
  unfold withDest fatal at h
  cases o with
  | lit v => cases h; exact .inr ⟨rfl, rfl⟩
  | reg r => exact .inl ⟨r, rfl, h⟩
  | invalid w => cases h; exact .inr ⟨rfl, rfl⟩

/-- An effective address either names a cell or ends the step with `MemoryAddressOutOfRange`. -/
theorem withAddress_next {ea : Word} {s t : State} {k : Nat → Answer} (h : withAddress ea s k = .next t) :
    (ea.toNat < 32768 ∧ k ea.toNat = .next t) ∨ (32768 ≤ ea.toNat ∧ t = s.raise .memoryAddressOutOfRange) := by
  unfold withAddress fatal at h
  by_cases hea : 32768 ≤ ea.toNat
  · rw [if_pos hea] at h; cases h; exact .inr ⟨hea, rfl⟩
  · rw [if_neg hea] at h; exact .inl ⟨by omega, h⟩

/-- A push either finds room or ends the step with `StackOverflow`. -/
theorem withRoom_next {s t : State} {k : Answer} (h : withRoom s k = .next t) :
    (s.stackFull = false ∧ k = .next t) ∨ (s.stackFull = true ∧ t = s.raise .stackOverflow) := by
  unfold withRoom fatal at h
  cases hf : s.stackFull with
  | false => rw [hf] at h; exact .inl ⟨rfl, by simpa using h⟩
  | true => rw [hf] at h; cases h; exact .inr ⟨rfl, rfl⟩

/-- A pop either takes the top word or ends the step with `StackUnderflow`. -/
theorem withPop_next {s t : State} {k : Word → State → Answer} (h : withPop s k = .next t) :
    (∃ v rest, s.stack = v :: rest ∧ k v (s.setStack rest) = .next t) ∨
      (s.stack = [] ∧ t = s.raise .stackUnderflow) := by
  unfold withPop fatal at h
  cases hs : s.stack with
  | nil => rw [hs] at h; cases h; exact .inr ⟨rfl, rfl⟩
  | cons v rest => rw [hs] at h; exact .inl ⟨v, rest, rfl, h⟩

/-- The shape `writeBinary`: it writes one register, or takes the error of its leftmost bad operand. -/
theorem writeBinary_next {f : Word → Word → Word} {dst a b : Operand} {s t : State}
    (h : writeBinary f dst a b s = .next t) :
    (∃ d va vb, dst = .reg d ∧ s.value a = some va ∧ s.value b = some vb ∧ t = s.setReg d (f va vb)) ∨
      (destOf dst = none ∧ t = s.raise .invalidRegisterTarget) ∨
      ((∃ d, dst = .reg d) ∧ (s.value a = none ∨ s.value b = none) ∧ t = s.raise .invalidOperand) := by
  obtain ⟨d, hd, h⟩ | ⟨hd, rfl⟩ := withDest_next h
  · obtain ⟨va, ha, h⟩ | ⟨ha, rfl⟩ := withValue_next h
    · obtain ⟨vb, hb, h⟩ | ⟨hb, rfl⟩ := withValue_next h
      · cases h; exact .inl ⟨d, va, vb, hd, ha, hb, rfl⟩
      · exact .inr (.inr ⟨⟨d, hd⟩, .inr hb, rfl⟩)
    · exact .inr (.inr ⟨⟨d, hd⟩, .inl ha, rfl⟩)
  · exact .inr (.inl ⟨hd, rfl⟩)

/-- The shape `writeUnary`: it writes one register, or takes the error of its leftmost bad operand. -/
theorem writeUnary_next {f : Word → Word} {dst a : Operand} {s t : State}
    (h : writeUnary f dst a s = .next t) :
    (∃ d va, dst = .reg d ∧ s.value a = some va ∧ t = s.setReg d (f va)) ∨
      (destOf dst = none ∧ t = s.raise .invalidRegisterTarget) ∨
      ((∃ d, dst = .reg d) ∧ s.value a = none ∧ t = s.raise .invalidOperand) := by
  obtain ⟨d, hd, h⟩ | ⟨hd, rfl⟩ := withDest_next h
  · obtain ⟨va, ha, h⟩ | ⟨ha, rfl⟩ := withValue_next h
    · cases h; exact .inl ⟨d, va, hd, ha, rfl⟩
    · exact .inr (.inr ⟨⟨d, hd⟩, ha, rfl⟩)
  · exact .inr (.inl ⟨hd, rfl⟩)

/-- The shape `jumpWhen`: the pc is the target or stays, or the step ends with `InvalidOperand`. -/
theorem jumpWhen_next {taken : Word → Bool} {cond target : Operand} {s t : State}
    (h : jumpWhen taken cond target s = .next t) :
    (∃ c a, s.value cond = some c ∧ s.value target = some a ∧ t = if taken c then s.setPc a else s) ∨
      ((s.value cond = none ∨ s.value target = none) ∧ t = s.raise .invalidOperand) := by
  obtain ⟨c, hc, h⟩ | ⟨hc, rfl⟩ := withValue_next h
  · obtain ⟨a, ha, h⟩ | ⟨ha, rfl⟩ := withValue_next h
    · cases h; exact .inl ⟨c, a, hc, ha, rfl⟩
    · exact .inr ⟨.inr ha, rfl⟩
  · exact .inr ⟨.inl hc, rfl⟩

/-- Ending a step clears the latches of its next state. -/
theorem finish_next {o : Answer} {t : State} (h : finish o = .next t) : ∃ u, o = .next u ∧ t = u.endStep := by
  cases o with
  | next u => cases h; exact ⟨u, rfl, rfl⟩
  | fault f => cases h
  | refused r => cases h

/-- A fetch finds a cell or the pc is past memory. -/
theorem State.fetchWord_some {s s' : State} {w : Word} (h : s.fetchWord = some (w, s')) :
    s.pc.toNat < 32768 ∧ w = s.memRead s.pc.toNat ∧ s' = s.setPc (s.pc + 1#16) := by
  unfold State.fetchWord at h
  by_cases hp : 32768 ≤ s.pc.toNat
  · rw [if_pos hp] at h; cases h
  · rw [if_neg hp] at h; cases h; exact ⟨by omega, rfl, rfl⟩

/-- The stack is full exactly at a bounded capacity. -/
theorem State.stackFull_iff (s : State) : s.stackFull = true ↔ s.cfg.stackCapacity = some s.stack.length := by
  unfold State.stackFull
  cases s.cfg.stackCapacity with
  | none => simp
  | some n => simp [eq_comm]

end Sys2Proof.Machine
end

