-- ==== Sys2Proof/Laws/Exec.lean ====
section
/-! SUPPORT. For each instruction, everything its meaning can answer as a next state: its effect, or one fatal
error with the condition under which it is taken. Proofs about `exec` cite these and never unfold a meaning. -/

namespace Sys2Proof.Machine

theorem execHalt_next {s t : State} (h : execHalt s = .next t) : t = s.haltRun := by cases h; rfl

theorem execNoop_next {s t : State} (h : execNoop s = .next t) : t = s := by cases h; rfl

theorem execOut_next {val : Operand} {s t : State} (h : execOut val s = .next t) :
    (∃ c, s.value val = some c ∧ t = s.termWrite c) ∨ (s.value val = none ∧ t = s.raise .invalidOperand) := by
  obtain ⟨c, hc, h⟩ | h := withValue_next h
  · cases h; exact .inl ⟨c, hc, rfl⟩
  · exact .inr h

/-- `in` with a code available completes; with none it waits. -/
theorem execInput_next {dst : Operand} {s t : State} (h : execInput dst s = .next t) :
    (∃ d c rest, dst = .reg d ∧ s.termIn = c :: rest ∧ t = (s.beginWait d).takeInput c rest) ∨
      (∃ d, dst = .reg d ∧ s.termIn = [] ∧ t = s.beginWait d) ∨
      (destOf dst = none ∧ t = s.raise .invalidRegisterTarget) := by
  obtain ⟨d, hd, h⟩ | h := withDest_next h
  · cases h
    cases hi : s.termIn with
    | nil => exact .inr (.inl ⟨d, hd, rfl, State.tryInput_of_nil hi⟩)
    | cons c rest => exact .inl ⟨d, c, rest, hd, rfl, State.tryInput_of_cons hi⟩
  · exact .inr (.inr h)

theorem execSet_next {dst val : Operand} {s t : State} (h : execSet dst val s = .next t) :
    (∃ d v, dst = .reg d ∧ s.value val = some v ∧ t = s.setReg d v) ∨
      (destOf dst = none ∧ t = s.raise .invalidRegisterTarget) ∨
      ((∃ d, dst = .reg d) ∧ s.value val = none ∧ t = s.raise .invalidOperand) := writeUnary_next h

theorem execPush_next {val : Operand} {s t : State} (h : execPush val s = .next t) :
    (∃ v, s.value val = some v ∧ s.stackFull = false ∧ t = s.stackPush v) ∨
      (s.value val = none ∧ t = s.raise .invalidOperand) ∨
      ((∃ v, s.value val = some v) ∧ s.stackFull = true ∧ t = s.raise .stackOverflow) := by
  obtain ⟨v, hv, h⟩ | h := withValue_next h
  · obtain ⟨hf, h⟩ | ⟨hf, h⟩ := withRoom_next h
    · cases h; exact .inl ⟨v, hv, hf, rfl⟩
    · exact .inr (.inr ⟨⟨v, hv⟩, hf, h⟩)
  · exact .inr (.inl h)

theorem execPop_next {dst : Operand} {s t : State} (h : execPop dst s = .next t) :
    (∃ d v rest, dst = .reg d ∧ s.stack = v :: rest ∧ t = (s.setStack rest).setReg d v) ∨
      (destOf dst = none ∧ t = s.raise .invalidRegisterTarget) ∨
      ((∃ d, dst = .reg d) ∧ s.stack = [] ∧ t = s.raise .stackUnderflow) := by
  obtain ⟨d, hd, h⟩ | h := withDest_next h
  · obtain ⟨v, rest, hs, h⟩ | h := withPop_next h
    · cases h; exact .inl ⟨d, v, rest, hd, hs, rfl⟩
    · exact .inr (.inr ⟨⟨d, hd⟩, h⟩)
  · exact .inr (.inl h)

theorem execMod_next {dst a b : Operand} {s t : State} (h : execMod dst a b s = .next t) :
    (∃ d va vb, dst = .reg d ∧ s.value a = some va ∧ s.value b = some vb ∧ vb ≠ 0#16 ∧
        t = s.setReg d (aluMod va vb)) ∨
      (destOf dst = none ∧ t = s.raise .invalidRegisterTarget) ∨
      ((∃ d, dst = .reg d) ∧ (s.value a = none ∨ s.value b = none) ∧ t = s.raise .invalidOperand) ∨
      ((∃ d, dst = .reg d) ∧ s.value a ≠ none ∧ s.value b = some 0#16 ∧ t = s.raise .divisionByZero) := by
  obtain ⟨d, hd, h⟩ | h := withDest_next h
  · obtain ⟨va, ha, h⟩ | ⟨ha, h⟩ := withValue_next h
    · obtain ⟨vb, hb, h⟩ | ⟨hb, h⟩ := withValue_next h
      · by_cases hz : vb = 0#16
        · rw [if_pos hz] at h
          cases h
          exact .inr (.inr (.inr ⟨⟨d, hd⟩, by simp [ha], by rw [hb, hz], rfl⟩))
        · rw [if_neg hz] at h
          cases h
          exact .inl ⟨d, va, vb, hd, ha, hb, hz, rfl⟩
      · exact .inr (.inr (.inl ⟨⟨d, hd⟩, .inr hb, h⟩))
    · exact .inr (.inr (.inl ⟨⟨d, hd⟩, .inl ha, h⟩))
  · exact .inr (.inl h)

theorem execJmp_next {target : Operand} {s t : State} (h : execJmp target s = .next t) :
    (∃ a, s.value target = some a ∧ t = s.setPc a) ∨ (s.value target = none ∧ t = s.raise .invalidOperand) := by
  obtain ⟨a, ha, h⟩ | h := withValue_next h
  · cases h; exact .inl ⟨a, ha, rfl⟩
  · exact .inr h

theorem execJt_next {cond target : Operand} {s t : State} (h : execJt cond target s = .next t) :
    (∃ c a, s.value cond = some c ∧ s.value target = some a ∧ t = if c = 0#16 then s else s.setPc a) ∨
      ((s.value cond = none ∨ s.value target = none) ∧ t = s.raise .invalidOperand) := by
  obtain ⟨c, a, hc, ha, h⟩ | h := jumpWhen_next h
  · refine .inl ⟨c, a, hc, ha, ?_⟩
    by_cases hz : c = 0#16 <;> simpa [hz] using h
  · exact .inr h

theorem execJf_next {cond target : Operand} {s t : State} (h : execJf cond target s = .next t) :
    (∃ c a, s.value cond = some c ∧ s.value target = some a ∧ t = if c = 0#16 then s.setPc a else s) ∨
      ((s.value cond = none ∨ s.value target = none) ∧ t = s.raise .invalidOperand) := by
  obtain ⟨c, a, hc, ha, h⟩ | h := jumpWhen_next h
  · refine .inl ⟨c, a, hc, ha, ?_⟩
    by_cases hz : c = 0#16 <;> simpa [hz] using h
  · exact .inr h

theorem execCall_next {target : Operand} {s t : State} (h : execCall target s = .next t) :
    (∃ a, s.value target = some a ∧ s.stackFull = false ∧ t = (s.stackPush s.pc).setPc a) ∨
      (s.value target = none ∧ t = s.raise .invalidOperand) ∨
      ((∃ a, s.value target = some a) ∧ s.stackFull = true ∧ t = s.raise .stackOverflow) := by
  obtain ⟨a, ha, h⟩ | h := withValue_next h
  · obtain ⟨hf, h⟩ | ⟨hf, h⟩ := withRoom_next h
    · cases h; exact .inl ⟨a, ha, hf, rfl⟩
    · exact .inr (.inr ⟨⟨a, ha⟩, hf, h⟩)
  · exact .inr (.inl h)

theorem execRet_next {s t : State} (h : execRet s = .next t) :
    (∃ v rest, s.stack = v :: rest ∧ t = (s.setStack rest).setPc v) ∨
      (s.stack = [] ∧ t = s.raise .stackUnderflow) := by
  obtain ⟨v, rest, hs, h⟩ | h := withPop_next h
  · cases h; exact .inl ⟨v, rest, hs, rfl⟩
  · exact .inr h

theorem execRmem_next {dst addr : Operand} {s t : State} (h : execRmem dst addr s = .next t) :
    (∃ d ea, dst = .reg d ∧ s.value addr = some ea ∧ ea.toNat < 32768 ∧
        t = s.setReg d (Memory.read s.mem ea.toNat)) ∨
      (destOf dst = none ∧ t = s.raise .invalidRegisterTarget) ∨
      ((∃ d, dst = .reg d) ∧ s.value addr = none ∧ t = s.raise .invalidOperand) ∨
      ((∃ d, dst = .reg d) ∧ (∃ ea, s.value addr = some ea ∧ 32768 ≤ ea.toNat) ∧
        t = s.raise .memoryAddressOutOfRange) := by
  obtain ⟨d, hd, h⟩ | h := withDest_next h
  · obtain ⟨ea, ha, h⟩ | ⟨ha, h⟩ := withValue_next h
    · obtain ⟨hlt, h⟩ | ⟨hge, h⟩ := withAddress_next h
      · cases h; exact .inl ⟨d, ea, hd, ha, hlt, rfl⟩
      · exact .inr (.inr (.inr ⟨⟨d, hd⟩, ⟨ea, ha, hge⟩, h⟩))
    · exact .inr (.inr (.inl ⟨⟨d, hd⟩, ha, h⟩))
  · exact .inr (.inl h)

theorem execWmem_next {addr val : Operand} {s t : State} (h : execWmem addr val s = .next t) :
    (∃ ea v, s.value addr = some ea ∧ s.value val = some v ∧ ea.toNat < 32768 ∧ t = s.memWrite ea.toNat v) ∨
      ((s.value addr = none ∨ s.value val = none) ∧ t = s.raise .invalidOperand) ∨
      ((∃ ea, s.value addr = some ea ∧ 32768 ≤ ea.toNat) ∧ s.value val ≠ none ∧
        t = s.raise .memoryAddressOutOfRange) := by
  obtain ⟨ea, ha, h⟩ | ⟨ha, h⟩ := withValue_next h
  · obtain ⟨v, hv, h⟩ | ⟨hv, h⟩ := withValue_next h
    · obtain ⟨hlt, h⟩ | ⟨hge, h⟩ := withAddress_next h
      · cases h; exact .inl ⟨ea, v, ha, hv, hlt, rfl⟩
      · exact .inr (.inr ⟨⟨ea, ha, hge⟩, by simp [hv], h⟩)
    · exact .inr (.inl ⟨.inr hv, h⟩)
  · exact .inr (.inl ⟨.inl ha, h⟩)

/-- The one-step cases of the CORE: no step outside a run, the wait of `in`, a stop, or one instruction. -/
theorem step_next {s t : State} (h : step s = .next t) :
    ((s.runState = .idle ∨ s.runState = .halted) ∧ t = s) ∨
      (s.runState = .waitInput ∧ t = s.tryInput) ∨
      (s.runState = .running ∧ s.stopRequest = true ∧ t = s.stopRun) ∨
      (s.runState = .running ∧ s.stopRequest = false ∧ ∃ u, s.cycle = .next u ∧ t = u.endStep) := by
  unfold step at h
  cases hr : s.runState with
  | idle => rw [hr] at h; cases h; exact .inl ⟨.inl rfl, rfl⟩
  | halted => rw [hr] at h; cases h; exact .inl ⟨.inr rfl, rfl⟩
  | waitInput => rw [hr] at h; cases h; exact .inr (.inl ⟨rfl, rfl⟩)
  | running =>
    rw [hr] at h
    cases hs : s.stopRequest with
    | true => simp only [hs, if_true] at h; cases h; exact .inr (.inr (.inl ⟨rfl, rfl, rfl⟩))
    | false =>
      simp only [hs, Bool.false_eq_true, if_false] at h
      exact .inr (.inr (.inr ⟨rfl, rfl, finish_next h⟩))

end Sys2Proof.Machine
end

