-- ==== Sys2Proof/Laws/Fetch.lean ====
section
/-! SUPPORT. Fetching one word, and the words the decoder is given at an address. -/

namespace Sys2Proof.Machine

/-- A fetch at an address that names a cell reads it and advances the pc (R69). -/
theorem State.fetchWord_of_lt {s : State} (h : s.pc.toNat < 32768) :
    s.fetchWord = some (Memory.read s.mem s.pc.toNat, s.setPc (s.pc + 1#16)) := by
  have : ¬ 32768 ≤ s.pc.toNat := by omega
  simp [State.fetchWord, this, State.memRead]

/-- A fetch past the end of memory finds no word (R74). -/
theorem State.fetchWord_of_ge {s : State} (h : 32768 ≤ s.pc.toNat) : s.fetchWord = none := by
  simp [State.fetchWord, h]

/-- The words at an address, by how many fit below 32768. -/
theorem wordsAt_eq (m : Memory) (p : Nat) :
    wordsAt m p =
      if p + 3 < 32768 then [Memory.read m p, Memory.read m (p + 1), Memory.read m (p + 2), Memory.read m (p + 3)]
      else if p + 2 < 32768 then [Memory.read m p, Memory.read m (p + 1), Memory.read m (p + 2)]
      else if p + 1 < 32768 then [Memory.read m p, Memory.read m (p + 1)]
      else if p < 32768 then [Memory.read m p] else [] := by
  have hr : List.range 4 = [0, 1, 2, 3] := rfl
  unfold wordsAt
  rw [hr]
  split
  · have : p < 32768 ∧ p + 1 < 32768 ∧ p + 2 < 32768 := by omega
    simp [*]
  · split
    · have : p < 32768 ∧ p + 1 < 32768 := by omega
      simp [*]
    · split
      · have : p < 32768 := by omega
        simp [*]
      · split <;> simp [*]

end Sys2Proof.Machine
end

