-- ==== Sys2Proof/Laws/PerInstr.lean ====
section
/-! SUPPORT. Facts about every instruction as syntax, one lemma per constructor. Family `EncodedShape`: the
encoding of an instruction is its opcode word followed by as many words as the opcode's arity, which is at
most three. -/

namespace Sys2Proof.Laws.EncodedShape

/-- The opcode of `i` has the arity of `i`, and `encode i` has one word more. -/
def Statement (i : Instr) : Prop :=
  opcodeArity i.opcode = some i.arity ∧ (encode i).length = 1 + i.arity ∧ i.arity ≤ 3 ∧
    i.opcodeWord.toNat = i.opcode

theorem halt : Statement .halt := ⟨rfl, rfl, by simp [Instr.arity, Instr.operands], rfl⟩
theorem set (dst val : Operand) : Statement (.set dst val) := ⟨rfl, rfl, by simp [Instr.arity, Instr.operands], rfl⟩
theorem push (val : Operand) : Statement (.push val) := ⟨rfl, rfl, by simp [Instr.arity, Instr.operands], rfl⟩
theorem pop (dst : Operand) : Statement (.pop dst) := ⟨rfl, rfl, by simp [Instr.arity, Instr.operands], rfl⟩
theorem eq (dst a b : Operand) : Statement (.eq dst a b) := ⟨rfl, rfl, by simp [Instr.arity, Instr.operands], rfl⟩
theorem gt (dst a b : Operand) : Statement (.gt dst a b) := ⟨rfl, rfl, by simp [Instr.arity, Instr.operands], rfl⟩
theorem jmp (target : Operand) : Statement (.jmp target) := ⟨rfl, rfl, by simp [Instr.arity, Instr.operands], rfl⟩
theorem jt (cond target : Operand) : Statement (.jt cond target) := ⟨rfl, rfl, by simp [Instr.arity, Instr.operands], rfl⟩
theorem jf (cond target : Operand) : Statement (.jf cond target) := ⟨rfl, rfl, by simp [Instr.arity, Instr.operands], rfl⟩
theorem add (dst a b : Operand) : Statement (.add dst a b) := ⟨rfl, rfl, by simp [Instr.arity, Instr.operands], rfl⟩
theorem mult (dst a b : Operand) : Statement (.mult dst a b) := ⟨rfl, rfl, by simp [Instr.arity, Instr.operands], rfl⟩
theorem mod (dst a b : Operand) : Statement (.mod dst a b) := ⟨rfl, rfl, by simp [Instr.arity, Instr.operands], rfl⟩
theorem and (dst a b : Operand) : Statement (.and dst a b) := ⟨rfl, rfl, by simp [Instr.arity, Instr.operands], rfl⟩
theorem or (dst a b : Operand) : Statement (.or dst a b) := ⟨rfl, rfl, by simp [Instr.arity, Instr.operands], rfl⟩
theorem not (dst a : Operand) : Statement (.not dst a) := ⟨rfl, rfl, by simp [Instr.arity, Instr.operands], rfl⟩
theorem rmem (dst addr : Operand) : Statement (.rmem dst addr) := ⟨rfl, rfl, by simp [Instr.arity, Instr.operands], rfl⟩
theorem wmem (addr val : Operand) : Statement (.wmem addr val) := ⟨rfl, rfl, by simp [Instr.arity, Instr.operands], rfl⟩
theorem call (target : Operand) : Statement (.call target) := ⟨rfl, rfl, by simp [Instr.arity, Instr.operands], rfl⟩
theorem ret : Statement .ret := ⟨rfl, rfl, by simp [Instr.arity, Instr.operands], rfl⟩
theorem out (val : Operand) : Statement (.out val) := ⟨rfl, rfl, by simp [Instr.arity, Instr.operands], rfl⟩
theorem input (dst : Operand) : Statement (.input dst) := ⟨rfl, rfl, by simp [Instr.arity, Instr.operands], rfl⟩
theorem noop : Statement .noop := ⟨rfl, rfl, by simp [Instr.arity, Instr.operands], rfl⟩

end Sys2Proof.Laws.EncodedShape
end

