-- ==== Sys2Proof/Tests/Slice0.lean ====
section
/-! SUPPORT. The model's own tests: the checks of WellFormed, the decoding of a word of every instruction, at most
two one-step tests per instruction, and for every statement with hypotheses a state and operands that meet
them. Words and expected results are written out from spec/30_encoding.md (R56, R65) and from
spec/95_test_vectors.md, whose vector a comment names. -/

namespace Sys2Proof.Tests

open Sys2Proof.Machine Sys2Proof.Claims

/-- From reset: the image is loaded, the terminal has the codes available, the CORE is started. -/
def start (image : List Word) (input : List Word := []) : State :=
  (State.reset.supplyInput input).boot image

/-- The next state of an answer. -/
def nextOf : Answer → Option State
  | .next s => some s
  | .fault _ => none
  | .refused _ => none

/-- One step. -/
def one (s : State) : Option State := nextOf (step s)

/-- What a fatal error reports: code, pc recorded, opcode recorded, pc, run state. -/
def report (s : State) : BitVec 4 × Word × Word × Word × RunState :=
  (s.errCode, s.errPc, s.errOpcode, s.pc, s.runState)

/-! ### Well-formedness: an ill-formed term for each check -/

theorem test_wf_refuses_literal_above_32767 : (Instr.push (.lit 32768#16)).wf = false := by decide
theorem test_wf_refuses_invalid_below_32776 : (Instr.jt (.lit 1#16) (.invalid 32775#16)).wf = false := by decide
theorem test_wf_accepts_every_class :
    (Instr.add (.reg 7) (.lit 32767#16) (.invalid 32776#16)).wf = true := by decide

/-! ### Decoding: one word list per constructor, from R56 -/

theorem test_decode_halt : decode [0#16] = .instr (.halt) [] := by decide
theorem test_decode_set : decode [1#16, 32770#16, 1234#16] = .instr (.set (.reg 2) (.lit 1234#16)) [] := by decide
theorem test_decode_push : decode [2#16, 7#16] = .instr (.push (.lit 7#16)) [] := by decide
theorem test_decode_pop : decode [3#16, 32768#16] = .instr (.pop (.reg 0)) [] := by decide
theorem test_decode_eq : decode [4#16, 32769#16, 5#16, 6#16] = .instr (.eq (.reg 1) (.lit 5#16) (.lit 6#16)) [] := by decide
theorem test_decode_gt : decode [5#16, 32768#16, 3#16, 2#16] = .instr (.gt (.reg 0) (.lit 3#16) (.lit 2#16)) [] := by decide
theorem test_decode_jmp : decode [6#16, 5#16] = .instr (.jmp (.lit 5#16)) [] := by decide
theorem test_decode_jt : decode [7#16, 1#16, 9#16] = .instr (.jt (.lit 1#16) (.lit 9#16)) [] := by decide
theorem test_decode_jf : decode [8#16, 32769#16, 3#16] = .instr (.jf (.reg 1) (.lit 3#16)) [] := by decide
theorem test_decode_add : decode [9#16, 32768#16, 32767#16, 5#16] = .instr (.add (.reg 0) (.lit 32767#16) (.lit 5#16)) [] := by decide
theorem test_decode_mult : decode [10#16, 32769#16, 300#16, 200#16] = .instr (.mult (.reg 1) (.lit 300#16) (.lit 200#16)) [] := by decide
theorem test_decode_mod : decode [11#16, 32768#16, 10#16, 3#16] = .instr (.mod (.reg 0) (.lit 10#16) (.lit 3#16)) [] := by decide
theorem test_decode_and : decode [12#16, 32770#16, 32768#16, 32767#16] = .instr (.and (.reg 2) (.reg 0) (.lit 32767#16)) [] := by decide
theorem test_decode_or : decode [13#16, 32771#16, 32770#16, 32769#16] = .instr (.or (.reg 3) (.reg 2) (.reg 1)) [] := by decide
theorem test_decode_not : decode [14#16, 32775#16, 0#16] = .instr (.not (.reg 7) (.lit 0#16)) [] := by decide
theorem test_decode_rmem : decode [15#16, 32768#16, 23#16] = .instr (.rmem (.reg 0) (.lit 23#16)) [] := by decide
theorem test_decode_wmem : decode [16#16, 10#16, 19#16] = .instr (.wmem (.lit 10#16) (.lit 19#16)) [] := by decide
theorem test_decode_call : decode [17#16, 7#16] = .instr (.call (.lit 7#16)) [] := by decide
theorem test_decode_ret : decode [18#16] = .instr (.ret) [] := by decide
theorem test_decode_out : decode [19#16, 65#16] = .instr (.out (.lit 65#16)) [] := by decide
theorem test_decode_in : decode [20#16, 32768#16] = .instr (.input (.reg 0)) [] := by decide
theorem test_decode_noop : decode [21#16] = .instr (.noop) [] := by decide
theorem test_decode_invalid_operand_word : decode [2#16, 65535#16] = .instr (.push (.invalid 65535#16)) [] := by decide
theorem test_decode_register_word_is_no_opcode : decode [32768#16] = .invalidOpcode 32768#16 := by decide
theorem test_decode_table_word : decodeTableWord 16 16 = some (.wmem (.lit 0#16) (.lit 0#16)) := by decide
theorem test_withFetchWord_runs_the_instruction :
    (one (State.reset.withFetchWord 16 2)).map (fun s => (s.stack, s.pc)) = some ([0#16], 2#16) := by decide

/-! ### One step of each instruction -/

/-- T1. -/
theorem test_halt : (one (start [0#16])).map (fun s => (s.runState, s.halted, s.errCode, s.stopped, s.pc)) = some (.halted, true, 0#4, false, 1#16) := by decide
/-- T2, its first step. -/
theorem test_noop : (one (start [21#16, 0#16])).map (fun s => (s.runState, s.pc)) = some (.running, 1#16) := by decide
/-- S11, its first step. -/
theorem test_out : (one (start [19#16, 65#16, 0#16])).map (fun s => (s.termOut, s.pc)) = some ([65#16], 2#16) := by decide
/-- T3. -/
theorem test_out_invalid : (one (start [19#16, 32776#16])).map report = some (2#4, 0#16, 19#16, 0#16, .halted) := by decide
/-- T5, its first step. -/
theorem test_in_available : (one (start [20#16, 32769#16, 20#16, 32770#16, 0#16] [90#16, 10#16])).map (fun s => (s.reg 1, s.termIn, s.runState, s.pc)) = some (90#16, [10#16], .running, 2#16) := by decide
/-- T6. -/
theorem test_in_waits : (one (start [20#16, 32768#16, 0#16])).map (fun s => (s.runState, s.halted, s.pc, s.reg 0)) = some (.waitInput, false, 2#16, 0#16) := by decide
/-- K1. -/
theorem test_set : (one (start [1#16, 32770#16, 1234#16, 0#16])).map (fun s => (s.reg 2, s.pc)) = some (1234#16, 3#16) := by decide
/-- K2. -/
theorem test_set_literal_destination : (one (start [1#16, 5#16, 7#16])).map report = some (3#4, 0#16, 1#16, 0#16, .halted) := by decide
/-- K9, its first step. -/
theorem test_push : (one (start [2#16, 1#16, 2#16, 2#16, 0#16])).map (fun s => (s.stack, s.pc)) = some ([1#16], 2#16) := by decide
/-- K8, its second step: capacity 1, stack [1], pc 2. -/
theorem test_push_full : (one ({ start [2#16, 1#16, 2#16, 2#16, 0#16] with cfg := { stackCapacity := some 1 }, stack := [1#16], pc := 2#16 })).map (fun s => (report s, s.stack)) = some ((8#4, 2#16, 2#16, 2#16, .halted), [1#16]) := by decide
/-- S8, its second step: stack [7], pc 2. -/
theorem test_pop : (one ({ start [2#16, 7#16, 3#16, 32768#16, 0#16] with stack := [7#16], pc := 2#16 })).map (fun s => (s.reg 0, s.stack, s.pc)) = some (7#16, [], 4#16) := by decide
/-- K6. -/
theorem test_pop_destination_before_depth : (one (start [3#16, 5#16])).map report = some (3#4, 0#16, 3#16, 0#16, .halted) := by decide
/-- A37: r0 = 40000. -/
theorem test_eq : (one ((start [4#16, 32769#16, 32768#16, 7232#16, 0#16]).setReg 0 40000#16)).map (fun s => (s.reg 1, s.pc)) = some (0#16, 4#16) := by decide
/-- A1. -/
theorem test_eq_equal : (one (start [4#16, 32768#16, 5#16, 5#16, 0#16])).map (fun s => (s.reg 0, s.pc)) = some (1#16, 4#16) := by decide
/-- A36: r0 = 40000. -/
theorem test_gt : (one ((start [5#16, 32769#16, 32768#16, 32767#16, 0#16]).setReg 0 40000#16)).map (fun s => (s.reg 1, s.pc)) = some (1#16, 4#16) := by decide
/-- A4. -/
theorem test_gt_strict : (one (start [5#16, 32768#16, 5#16, 5#16, 0#16])).map (fun s => (s.reg 0, s.pc)) = some (0#16, 4#16) := by decide
/-- S6, its first step. -/
theorem test_jmp : (one (start [6#16, 5#16, 19#16, 88#16, 0#16, 0#16])).map (fun s => s.pc) = some 5#16 := by decide
/-- C10, its second step: r0 = 32768. -/
theorem test_jmp_beyond_memory : (one ((start [6#16, 32768#16]).setReg 0 32768#16)).map (fun s => (s.pc, s.errCode)) = some (32768#16, 0#4) := by decide
/-- C11: r0 = 32768 is true. -/
theorem test_jt_taken : (one ((start [7#16, 32768#16, 7#16]).setReg 0 32768#16)).map (fun s => s.pc) = some 7#16 := by decide
/-- C6. -/
theorem test_jt_resolves_its_target : (one (start [7#16, 0#16, 32776#16])).map report = some (2#4, 0#16, 7#16, 0#16, .halted) := by decide
/-- C4. -/
theorem test_jf_taken : (one (start [8#16, 0#16, 4#16, 22#16, 0#16])).map (fun s => s.pc) = some 4#16 := by decide
/-- C5. -/
theorem test_jf_not_taken : (one (start [8#16, 1#16, 4#16, 0#16])).map (fun s => s.pc) = some 3#16 := by decide
/-- A32: r0 = 40000. -/
theorem test_add : (one ((start [9#16, 32769#16, 32768#16, 32768#16, 0#16]).setReg 0 40000#16)).map (fun s => (s.reg 1, s.pc)) = some (14464#16, 4#16) := by decide
/-- A29: r0 = 3. -/
theorem test_add_destination_is_source : (one ((start [9#16, 32768#16, 32768#16, 32768#16, 0#16]).setReg 0 3#16)).map (fun s => (s.reg 0, s.pc)) = some (6#16, 4#16) := by decide
/-- S2. -/
theorem test_mult : (one (start [10#16, 32768#16, 20000#16, 20000#16, 0#16])).map (fun s => (s.reg 0, s.pc)) = some (1024#16, 4#16) := by decide
/-- A12. -/
theorem test_mult_no_truncation : (one (start [10#16, 32768#16, 32767#16, 32767#16, 0#16])).map (fun s => (s.reg 0, s.pc)) = some (1#16, 4#16) := by decide
/-- A39: r0 = 40000, r2 = 50000. -/
theorem test_mod : (one (((start [11#16, 32769#16, 32768#16, 32770#16, 0#16]).setReg 0 40000#16).setReg 2 50000#16)).map (fun s => (s.reg 1, s.pc)) = some (40000#16, 4#16) := by decide
/-- A20. -/
theorem test_mod_by_zero : (one (start [11#16, 32768#16, 5#16, 0#16, 0#16])).map report = some (5#4, 0#16, 11#16, 0#16, .halted) := by decide
/-- A34: r0 = 40000. -/
theorem test_and : (one ((start [12#16, 32769#16, 32768#16, 32767#16, 0#16]).setReg 0 40000#16)).map (fun s => (s.reg 1, s.pc)) = some (7232#16, 4#16) := by decide
/-- A35: r0 = 40000. -/
theorem test_or : (one ((start [13#16, 32769#16, 32768#16, 1#16, 0#16]).setReg 0 40000#16)).map (fun s => (s.reg 1, s.pc)) = some (40001#16, 4#16) := by decide
/-- A33: r0 = 40000. -/
theorem test_not : (one ((start [14#16, 32769#16, 32768#16, 0#16]).setReg 0 40000#16)).map (fun s => (s.reg 1, s.pc)) = some (25535#16, 3#16) := by decide
/-- M2. -/
theorem test_rmem_own_operand : (one (start [15#16, 32768#16, 1#16, 0#16])).map (fun s => (s.reg 0, s.pc)) = some (32768#16, 3#16) := by decide
/-- M5, its second step: r0 = 32768, pc 3. -/
theorem test_rmem_out_of_range : (one ({ (start [15#16, 32768#16, 1#16, 15#16, 32769#16, 32768#16, 0#16]).setReg 0 32768#16 with pc := 3#16 })).map (fun s => (report s, s.reg 1)) = some ((7#4, 3#16, 15#16, 3#16, .halted), 0#16) := by decide
/-- M6. -/
theorem test_wmem_own_operand : (one (start [16#16, 1#16, 7#16, 0#16])).map (fun s => (wordsAt s.mem 0, s.pc)) = some ([16#16, 7#16, 7#16, 0#16], 3#16) := by decide
/-- M3. -/
theorem test_wmem_register_is_an_address : (one (start [16#16, 32768#16, 5#16, 0#16])).map (fun s => (s.memRead 0, s.reg 0)) = some (5#16, 0#16) := by decide
/-- P2, its second step: stack [7], pc 2. -/
theorem test_call : (one ({ start [2#16, 7#16, 17#16, 7#16] with stack := [7#16], pc := 2#16 })).map (fun s => (s.stack, s.pc)) = some ([4#16, 7#16], 7#16) := by decide
/-- C12, its second step: pc 32766. -/
theorem test_call_at_the_end_of_memory : (one ({ start [] with mem := [(32766, 17#16), (32767, 5#16)], pc := 32766#16 })).map (fun s => (s.stack, s.pc)) = some ([32768#16], 5#16) := by decide
/-- R105's example: stack [7, 4], top 4. -/
theorem test_ret : (one ({ start [18#16] with stack := [4#16, 7#16] })).map (fun s => (s.stack, s.pc)) = some ([7#16], 4#16) := by decide
/-- C8. -/
theorem test_ret_on_empty_stack : (one (start [18#16])).map report = some (4#4, 0#16, 18#16, 0#16, .halted) := by decide

/-! ### The step itself -/

/-- E1. -/
theorem test_invalid_opcode : (one (start [22#16])).map report = some (1#4, 0#16, 22#16, 0#16, .halted) := by decide
/-- E5, its last step: pc 32768. -/
theorem test_fetch_past_memory : (one ({ start [] with pc := 32768#16 })).map (fun s => (report s, s.errOpcodeValid)) = some ((6#4, 32768#16, 0#16, 32768#16, .halted), false) := by decide
/-- E6, its last step. -/
theorem test_operand_fetch_past_memory : (one ({ start [] with mem := [(32767, 1#16)], pc := 32767#16 })).map (fun s => (report s, s.errOpcodeValid)) = some ((6#4, 32767#16, 1#16, 32767#16, .halted), true) := by decide
/-- E7, its last step. -/
theorem test_opcode_check_before_operand_fetch : (one ({ start [] with mem := [(32767, 22#16)], pc := 32767#16 })).map report = some (1#4, 32767#16, 22#16, 32767#16, .halted) := by decide
/-- E4, its last step. -/
theorem test_halt_at_the_last_address : (one ({ start [] with pc := 32767#16 })).map (fun s => (s.pc, s.errCode, s.runState)) = some (32768#16, 0#4, .halted) := by decide
/-- E10. -/
theorem test_stop_before_the_first_step : (one ({ start [0#16] with stopRequest := true })).map (fun s => (s.runState, s.stopped, s.errCode, s.pc)) = some (.halted, true, 0#4, 0#16) := by decide
/-- R83's example: the code 90 arrives while r0's in waits. -/
theorem test_waiting_in_completes : (one (hostAct (.inputLine [90#16]) { start [] with runState := .waitInput, inDest := 3, pc := 2#16 })).map (fun s => (s.reg 3, s.termIn, s.runState, s.pc)) = some (90#16, [10#16], .running, 2#16) := by decide
/-- S15, S14. -/
theorem test_loader_bytes : loadBytes [19#8, 0#8, 65#8, 0#8, 0#8, 0#8] = .image [19#16, 65#16, 0#16] ∧
    loadBytes [0x13#8, 0x00#8, 0x41#8] = .loadError .oddLength := by decide
/-- R45: a load while the CORE runs is refused. -/
theorem test_load_refused_while_running : hostAct (.load 0 7#16) (start [21#16]) = start [21#16] := by decide
/-- R125: reset abandons a run. -/
theorem test_reset_abandons_a_run : hostAct .reset (start [21#16]) = State.reset := by decide

/-! ### Witnesses: for every statement with hypotheses, states and operands that meet all of them together, one
line for each clause, at the boundary values of its range -/

/-- A running CORE at the boundary before the word at p, over the given memory. -/
def atPc (m : Memory) (p : Word) : State := { start [] with mem := m, pc := p }

/-- No operand of these two classes names a register. -/
theorem noRegister_lit (v : Word) : NoRegister (.lit v) := fun _ h => by cases h
theorem noRegister_invalid (v : Word) : NoRegister (.invalid v) := fun _ h => by cases h

/-- The CORE whose r0 is the given word, with a stack that may hold one word. -/
def tight (r0 : Word) (stack : List Word) : State :=
  { (start [0#16]).setReg 0 r0 with stack := stack, cfg := { stackCapacity := some 1 } }

theorem witness_ResetGivesEveryResetValue :
    (∃ s t, t = hostAct .reset s ∧ s ≠ t) ∧ ∃ t, t = State.reset :=
  ⟨⟨start [21#16], _, rfl, by decide⟩, _, rfl⟩

theorem witness_LoadIsPerformedOnlyInIdle :
    (State.reset.runState = .idle ∧ Memory.wf State.reset.mem = true ∧ 0 < 32768 ∧ 32767 < 32768) ∧
    (start [0#16]).runState ≠ .idle := by decide

theorem witness_ImageIsPlacedVerbatim :
    State.reset.runState = .idle ∧ Memory.wf State.reset.mem = true ∧
    (∃ image : List Word, image.length ≤ 32768 ∧ 32767 < image.length ∧ image.length ≤ 32768) ∧
    ([] : List Word).length ≤ 32768 ∧ ([] : List Word).length ≤ 0 ∧ (∀ a, Part.pc ≠ .cell a) :=
  ⟨rfl, rfl, ⟨List.replicate (2 ^ 15) 7#16, by rw [List.length_replicate]; decide⟩, by simp, by simp,
    fun a => by simp⟩

theorem witness_StartIsPerformedOnlyInIdle :
    State.reset.runState = .idle ∧ State.reset.stopRequest = false ∧ (start []).runState ≠ .idle := by decide

theorem witness_LoaderWordsAreLittleEndian :
    ([1#8] : List Byte).length % 2 = 1 ∧
    (∃ bytes : List Byte, bytes.length % 2 = 0 ∧ 2 * 32768 < bytes.length) ∧
    (∃ bytes : List Byte, bytes.length % 2 = 0 ∧ bytes.length ≤ 2 * 32768 ∧ 2 * 32768 ≤ bytes.length) ∧
    loadBytes [0x13#8, 0x80#8] = .image [0x8013#16] ∧ 0 < [0x8013#16].length :=
  ⟨rfl, ⟨List.replicate (2 ^ 16 + 2) 0#8, by rw [List.length_replicate]; decide⟩,
    ⟨List.replicate (2 ^ 16) 0#8, by rw [List.length_replicate]; decide⟩, by decide, by decide⟩

theorem witness_HostReadsStateOnlyBetweenRuns :
    State.reset.runState = .idle ∧ ((start []).stopRun).runState = .halted ∧ (start []).runState = .running ∧
    (one (start [20#16, 32768#16])).map State.runState = some .waitInput := by decide

/-- A line of two codes behind a pending one, the empty line, and a waiting `in`. -/
theorem witness_LineIsReadThenItsTerminator :
    ([0, 0, 7, 7] : List RegIdx).length = (start [] [5#16]).termIn.length + [65#16, 66#16].length + 1 ∧
    ([7] : List RegIdx).length = (start []).termIn.length + ([] : List Word).length + 1 ∧
    ∃ s, one (start [20#16, 32775#16]) = some s ∧ s.runState = .waitInput ∧ s.termIn = [] :=
  ⟨by decide, by decide, _, rfl, by decide, by decide⟩

theorem witness_CanonicalMemoriesWithEqualReadsAreEqual :
    ∃ m m' : Memory, m ≠ [] ∧ Memory.wf m = true ∧ Memory.wf m' = true ∧
      ∀ a, Memory.read m a = Memory.read m' a :=
  ⟨[(0, 1#16), (32767, 2#16)], [(0, 1#16), (32767, 2#16)], by decide, by decide, by decide, fun _ => rfl⟩

theorem witness_OperandClassIsTheWholeWords :
    (32767#16).toNat < 32768 ∧ (32768#16).toNat = 32768 + (0 : RegIdx).val ∧
    (32775#16).toNat = 32768 + (7 : RegIdx).val ∧ 32776 ≤ (32776#16).toNat ∧ 32776 ≤ (65535#16).toNat := by decide

theorem witness_ResolverFollowsRawWord :
    (0#16).toNat < 32768 ∧ (32767#16).toNat < 32768 ∧ (32768#16).toNat = 32768 + (0 : RegIdx).val ∧
    (32775#16).toNat = 32768 + (7 : RegIdx).val ∧ 32776 ≤ (32776#16).toNat := by decide

theorem witness_DecodeOfEncodeIsTheInstruction :
    (Instr.mod (.reg 7) (.lit 32767#16) (.invalid 32776#16)).wf = true := by decide

theorem witness_EncodeOfDecodeIsTheWords :
    decode [16#16, 32775#16, 65535#16, 9#16] = .instr (.wmem (.reg 7) (.invalid 65535#16)) [9#16] := by decide

theorem witness_DecodeAtAnAddressIsTotal :
    32768 ≤ 32768 ∧
    (32767 < 32768 ∧ 22 ≤ (Memory.read [(32767, 22#16)] 32767).toNat) ∧
    (32765 < 32768 ∧ arities[(Memory.read [(32765, 9#16)] 32765).toNat]? = some 3 ∧ 32768 ≤ 32765 + 3) ∧
    (arities[(Memory.read [(32764, 9#16)] 32764).toNat]? = some 3 ∧ 32764 + 3 < 32768) ∧
    (arities[(Memory.read [(32767, 21#16)] 32767).toNat]? = some 0 ∧ 32767 + 0 < 32768) := by decide

theorem witness_StepRunsTheDecodedInstruction :
    AtBoundary (atPc [(32766, 17#16), (32767, 5#16)] 32766#16) ∧
    NextIs (.call (.lit 5#16)) (atPc [(32766, 17#16), (32767, 5#16)] 32766#16) :=
  ⟨⟨rfl, rfl⟩, [], by decide⟩

theorem witness_StopIsHonouredOnlyAtBoundaries :
    ((start []).runState = .running ∧ (hostAct (.stopLevel true) (start [])).stopRequest = true) ∧
    (∃ s, one (start [20#16, 32768#16]) = some s ∧ s.runState = .waitInput ∧ s.termIn = []) ∧
    ∃ s c rest, one (start [20#16, 32768#16]) = some s ∧
      (hostAct (.stopLevel true) (hostAct (.inputLine [65#16]) s)).runState = .waitInput ∧
      (hostAct (.stopLevel true) (hostAct (.inputLine [65#16]) s)).termIn = c :: rest ∧
      (hostAct (.stopLevel true) (hostAct (.inputLine [65#16]) s)).stopRequest = true :=
  ⟨⟨rfl, rfl⟩, ⟨_, rfl, by decide, by decide⟩, _, _, _, rfl, by decide, rfl, by decide⟩

theorem witness_NothingHappensOutsideARun :
    State.reset.runState = .idle ∧ (start []).stopRun.runState = .halted ∧
    (∃ s, one (start [20#16, 32768#16]) = some s ∧ s.runState = .waitInput ∧ s.termIn = []) ∧
    AtBoundary (start []) :=
  ⟨rfl, rfl, ⟨_, rfl, by decide, by decide⟩, rfl, rfl⟩

theorem witness_FetchErrorsEndTheRun :
    (AtBoundary (atPc [] 32768#16) ∧ 32768 ≤ (atPc [] 32768#16).pc.toNat) ∧
    (AtBoundary (atPc [(32767, 1#16)] 32767#16) ∧ (atPc [(32767, 1#16)] 32767#16).pc.toNat < 32768 ∧
      arities[(Memory.read (atPc [(32767, 1#16)] 32767#16).mem 32767).toNat]? = some 2 ∧ 32768 ≤ 32767 + 2) ∧
    (AtBoundary (atPc [(32767, 22#16)] 32767#16) ∧ (atPc [(32767, 22#16)] 32767#16).pc.toNat < 32768 ∧
      22 ≤ (Memory.read (atPc [(32767, 22#16)] 32767#16).mem 32767).toNat) :=
  ⟨⟨⟨rfl, rfl⟩, by decide⟩, ⟨⟨rfl, rfl⟩, by decide⟩, ⟨rfl, rfl⟩, by decide⟩

theorem witness_RaiseRecordsTheErrorAndHalts :
    ((start [21#16]).fetched .noop).latch.opFetched = true ∧ (start [21#16]).beginStep.latch.opFetched = false :=
  ⟨rfl, rfl⟩

theorem witness_FatalStepHasNoOtherEffect :
    (∃ t, AtBoundary (atPc [(0, 18#16)] 0#16) ∧ (atPc [(0, 18#16)] 0#16).errCode = 0#4 ∧
      step (atPc [(0, 18#16)] 0#16) = .next t ∧ t.errCode ≠ 0#4 ∧ (atPc [(0, 18#16)] 0#16).pc.toNat < 32768) ∧
    ∃ t, AtBoundary (atPc [] 32768#16) ∧ (atPc [] 32768#16).errCode = 0#4 ∧
      step (atPc [] 32768#16) = .next t ∧ t.errCode ≠ 0#4 ∧ 32768 ≤ (atPc [] 32768#16).pc.toNat :=
  ⟨⟨_, ⟨rfl, rfl⟩, rfl, rfl, by decide, by decide⟩, _, ⟨rfl, rfl⟩, rfl, rfl, by decide, by decide⟩

theorem witness_InstructionsRaiseExactlyTheirErrors :
    (11 < 22 ∧ FatalError.divisionByZero ∈ raisable 11) ∧
    ∃ t, (Instr.ret).opcode = 18 ∧ (start []).errCode = 0#4 ∧ exec .ret (start []) = .next t ∧
      t.errCode = FatalError.stackUnderflow.code :=
  ⟨by decide, _, rfl, rfl, rfl, by decide⟩

theorem witness_FirstErrorInOrderIsReported :
    ((hostAct (.stopLevel true) (atPc [(0, 22#16)] 0#16)).runState = .running ∧
      (hostAct (.stopLevel true) (atPc [(0, 22#16)] 0#16)).errCode = 0#4 ∧
      (hostAct (.stopLevel true) (atPc [(0, 22#16)] 0#16)).stopRequest = true) ∧
    ((atPc [(0, 11#16), (1, 5#16), (2, 65535#16)] 0#16).runState = .running ∧
      (atPc [(0, 11#16), (1, 5#16), (2, 65535#16)] 0#16).errCode = 0#4 ∧
      (atPc [(0, 11#16), (1, 5#16), (2, 65535#16)] 0#16).stopRequest = false ∧
      stepErrors (atPc [(0, 11#16), (1, 5#16), (2, 65535#16)] 0#16) =
        [.invalidRegisterTarget, .invalidOperand, .divisionByZero]) := by decide

theorem witness_PcAfterAStep :
    (∃ t, AtBoundary (start [7#16, 1#16, 9#16]) ∧ (start [7#16, 1#16, 9#16]).errCode = 0#4 ∧
      NextIs (.jt (.lit 1#16) (.lit 9#16)) (start [7#16, 1#16, 9#16]) ∧
      step (start [7#16, 1#16, 9#16]) = .next t ∧ t.errCode = 0#4 ∧
      transferTarget (start [7#16, 1#16, 9#16]) (.jt (.lit 1#16) (.lit 9#16)) = some 9#16) ∧
    ∃ t, AtBoundary (atPc [(32767, 21#16)] 32767#16) ∧ (atPc [(32767, 21#16)] 32767#16).errCode = 0#4 ∧
      NextIs .noop (atPc [(32767, 21#16)] 32767#16) ∧ step (atPc [(32767, 21#16)] 32767#16) = .next t ∧
      t.errCode = 0#4 ∧ transferTarget (atPc [(32767, 21#16)] 32767#16) .noop = none ∧
      32768 ≤ t.pc.toNat ∧ AtBoundary t :=
  ⟨⟨_, ⟨rfl, rfl⟩, by decide, ⟨_, rfl⟩, rfl, by decide, by decide⟩,
    _, ⟨rfl, rfl⟩, by decide, ⟨_, rfl⟩, rfl, by decide, rfl, by decide, ⟨rfl, rfl⟩⟩

theorem witness_RunEndsOnlyByHaltErrorOrStop :
    (start [0#16]).errCode = 0#4 ∧ (start [0#16]).stopped = false ∧ (start [0#16]).runState ≠ .halted ∧
    ∃ t, step (start [0#16]) = .next t ∧ t.runState = .halted :=
  ⟨by decide, by decide, by decide, _, rfl, by decide⟩

theorem witness_StatusIsWrittenOnlyAsTheRunEnds :
    (∃ t, step (start [18#16]) = .next t ∧ t.errCode ≠ (start [18#16]).errCode) ∧
    ∃ t, step (hostAct (.stopLevel true) (start [0#16])) = .next t ∧
      t.stopped ≠ (hostAct (.stopLevel true) (start [0#16])).stopped :=
  ⟨⟨_, rfl, by decide⟩, _, rfl, by decide⟩

theorem witness_RunStateTransitions :
    (∃ t, step State.reset = .next t ∧ State.reset.runState = .idle) ∧
    (∃ t, step (start []).stopRun = .next t ∧ (start []).stopRun.runState = .halted) ∧
    (∃ s t, one (start [20#16, 32768#16]) = some s ∧ step s = .next t ∧ s.runState = .waitInput) ∧
    ∃ t, step (start [20#16, 32768#16]) = .next t ∧ t.runState = .waitInput ∧
      (start [20#16, 32768#16]).runState = .running :=
  ⟨⟨_, rfl, rfl⟩, ⟨_, rfl, rfl⟩, ⟨_, _, rfl, rfl, by decide⟩, _, rfl, by decide, by decide⟩

theorem witness_HaltedIsLeftOnlyByReset :
    (start []).stopRun.runState = .halted ∧
    [Event.tick, .host .start, .host (.load 0 7#16), .host (.stopLevel true), .host (.inputLine [1#16])].all
      (fun e => !isReset e) = true := by decide

/-- The invariant at a state of a run, with memory written and a word on the stack. -/
theorem inv_of_a_run : ({ start [] with mem := [(0, 21#16)], stack := [5#16] } : State).Inv := by
  constructor <;> decide

/-- The invariant at a state whose next instruction is `halt`. -/
theorem inv_of_a_halting_run : (start [] [65#16]).Inv := by
  constructor <;> decide

theorem witness_StepKeepsInvariant :
    ∃ s t : State, s.Inv ∧ step s = .next t ∧ t ≠ s :=
  ⟨_, _, inv_of_a_run, rfl, by decide⟩

theorem witness_HostActionsKeepInvariant :
    ∃ s : State, s.Inv ∧ s.runState = .running ∧ s.stack ≠ [] := ⟨_, inv_of_a_run, by decide, by decide⟩

theorem witness_InvariantGivesExactlyOneOutcome :
    (∃ s : State, s.Inv ∧ s.runState ≠ .halted) ∧
    ∃ s t : State, s.Inv ∧ step s = .next t ∧ t.runState ≠ s.runState :=
  ⟨⟨_, inv_of_a_run, by decide⟩, _, _, inv_of_a_halting_run, rfl, by decide⟩

theorem witness_EveryEndedRunHasExactlyOneOutcome :
    (∃ t, runEvents [.tick] State.reset = .next t ∧ t.runState ≠ .halted) ∧
    ∃ t, runEvents [.host (.load 0 18#16), .host .start, .tick] State.reset = .next t ∧ t.runState = .halted :=
  ⟨⟨_, rfl, by decide⟩, _, rfl, by decide⟩

theorem witness_OnlyWmemWritesMemory :
    ∃ t, exec (.wmem (.lit 32767#16) (.lit 19#16)) (start []) = .next t ∧
      Memory.read t.mem 32767 ≠ Memory.read (start []).mem 32767 := ⟨_, rfl, by decide⟩

theorem witness_OnlyTheDestinationRegisterIsWritten :
    ∃ t, exec (.set (.reg 7) (.lit 1#16)) (start []) = .next t ∧ t.reg 7 ≠ (start []).reg 7 := ⟨_, rfl, by decide⟩

theorem witness_OnlyFourInstructionsTouchTheStack :
    (∃ t, exec (.push (.lit 1#16)) (start []) = .next t ∧ t.stack ≠ (start []).stack) ∧
    ∃ t, exec .ret (tight 0#16 [4#16]) = .next t ∧ t.stack ≠ (tight 0#16 [4#16]).stack :=
  ⟨⟨_, rfl, by decide⟩, _, rfl, by decide⟩

theorem witness_OnlyOutAndInReachTheTerminal :
    (∃ t, exec (.out (.lit 65#16)) (start []) = .next t ∧ t.termOut ≠ (start []).termOut) ∧
    ∃ t, exec (.input (.reg 0)) (start [] [90#16]) = .next t ∧ t.termIn ≠ (start [] [90#16]).termIn :=
  ⟨⟨_, rfl, by decide⟩, _, rfl, by decide⟩

theorem witness_NoopHasNoEffect :
    AtBoundary (atPc [(32767, 21#16)] 32767#16) ∧ NextIs .noop (atPc [(32767, 21#16)] 32767#16) :=
  ⟨⟨rfl, rfl⟩, _, rfl⟩

theorem witness_OutPassesTheCodeUnchanged :
    (start []).value (.lit 32767#16) = some 32767#16 ∧ (tight 65535#16 []).value (.reg 0) = some 65535#16 ∧
    (start []).value (.invalid 32776#16) = none := by decide

theorem witness_InTakesACodeOrWaits :
    (Operand.reg 7 = .reg 7 ∧ (start [] [65535#16]).termIn = 65535#16 :: []) ∧
    (Operand.reg 0 = .reg 0 ∧ (start []).termIn = []) ∧
    (∃ s, one (start [20#16, 32775#16]) = some s ∧ s.runState = .waitInput ∧ s.termIn = [] ∧
      (hostAct (.inputCode 90#16) s).runState = .waitInput ∧ (hostAct (.inputCode 90#16) s).termIn = 90#16 :: []) ∧
    NoRegister (.lit 32767#16) ∧ NoRegister (.invalid 32776#16) :=
  ⟨by decide, by decide, ⟨_, rfl, by decide, by decide, by decide, by decide⟩, noRegister_lit _, noRegister_invalid _⟩

theorem witness_SetCopiesTheWholeValue :
    (Operand.reg 7 = .reg 7 ∧ (tight 65535#16 []).value (.reg 0) = some 65535#16) ∧
    NoRegister (.lit 0#16) ∧ NoRegister (.invalid 65535#16) ∧
    (Operand.reg 0 = .reg 0 ∧ (start []).value (.invalid 32776#16) = none) :=
  ⟨by decide, noRegister_lit _, noRegister_invalid _, by decide⟩

/-- Room for one more word, no value, no room. -/
theorem witness_PushAppendsItsValue :
    ((tight 0#16 []).value (.lit 7#16) = some 7#16 ∧
      (tight 0#16 []).cfg.stackCapacity ≠ some (tight 0#16 []).stack.length) ∧
    ((start []).value (.reg 0) = some 0#16 ∧ (start []).cfg.stackCapacity ≠ some (start []).stack.length) ∧
    (tight 0#16 [1#16]).value (.invalid 32776#16) = none ∧
    ((tight 0#16 [1#16]).value (.lit 7#16) = some 7#16 ∧
      (tight 0#16 [1#16]).cfg.stackCapacity = some (tight 0#16 [1#16]).stack.length) := by decide

theorem witness_PopTakesTheTop :
    (Operand.reg 0 = .reg 0 ∧ (tight 0#16 [9#16]).stack = 9#16 :: []) ∧ NoRegister (.lit 5#16) ∧
    (Operand.reg 7 = .reg 7 ∧ (start []).stack = []) ∧
    ∃ t, (tight 40000#16 []).value (.reg 0) = some 40000#16 ∧
      (tight 40000#16 []).cfg.stackCapacity ≠ some (tight 40000#16 []).stack.length ∧
      exec (.push (.reg 0)) (tight 40000#16 []) = .next t :=
  ⟨⟨rfl, rfl⟩, noRegister_lit _, ⟨rfl, rfl⟩, _, by decide, by decide, rfl⟩

/-- Operands for the statements made with `BinaryRule`, and for `mod` with a divisor that is not 0. -/
theorem witness_BinaryRule :
    (Operand.reg 7 = .reg 7 ∧ (tight 65535#16 []).value (.reg 0) = some 65535#16 ∧
      (tight 65535#16 []).value (.lit 32767#16) = some 32767#16) ∧
    NoRegister (.invalid 32776#16) ∧ NoRegister (.lit 32767#16) ∧
    (Operand.reg 0 = .reg 0 ∧ (start []).value (.invalid 32776#16) = none ∧
      (start []).value (.lit 1#16) ≠ none) :=
  ⟨by decide, noRegister_invalid _, noRegister_lit _, by decide⟩
theorem witness_ComparisonsWriteZeroOrOne :
    (start []).value (.lit 5#16) = some 5#16 ∧ (tight 40000#16 []).value (.reg 0) = some 40000#16 ∧
    NoRegister (.lit 5#16) ∧ (start []).value (.invalid 65535#16) = none :=
  ⟨by decide, by decide, noRegister_lit _, by decide⟩
theorem witness_AddAndMultWrapModulo32768 :
    (start []).value (.lit 32767#16) = some 32767#16 ∧ (tight 65535#16 []).value (.reg 0) = some 65535#16 ∧
    NoRegister (.lit 5#16) ∧ (start []).value (.invalid 65535#16) = none :=
  ⟨by decide, by decide, noRegister_lit _, by decide⟩
theorem witness_AndOrAreUnmasked :
    (tight 40000#16 []).value (.reg 0) = some 40000#16 ∧ (start []).value (.lit 32767#16) = some 32767#16 ∧
    NoRegister (.invalid 65535#16) ∧ (start []).value (.invalid 65535#16) = none :=
  ⟨by decide, by decide, noRegister_invalid _, by decide⟩

theorem witness_ModWritesTheRemainder :
    ((tight 65535#16 []).value (.reg 0) = some 65535#16 ∧ (tight 65535#16 []).value (.lit 1#16) = some 1#16 ∧
      (1#16).toNat ≠ 0) ∧
    NoRegister (.lit 3#16) ∧ (start []).value (.invalid 32776#16) = none ∧
    ((start []).value (.lit 5#16) = some 5#16 ∧ (start []).value (.reg 1) = some 0#16 ∧ (0#16).toNat = 0) :=
  ⟨by decide, noRegister_lit _, by decide, by decide⟩

theorem witness_NotIsMaskedTo15Bits :
    (tight 65535#16 []).value (.reg 0) = some 65535#16 ∧ NoRegister (.lit 3#16) ∧
    (start []).value (.invalid 32776#16) = none ∧
    ∃ t, (start []).value (.lit 32767#16) = some 32767#16 ∧ exec (.not (.reg 7) (.lit 32767#16)) (start []) = .next t :=
  ⟨by decide, noRegister_lit _, by decide, _, by decide, rfl⟩

/-- Both conclusions: all values below 32768, and a result of 32768 or more. -/
theorem witness_AluStaysBelow32768 :
    (∃ t, (Instr.mod (.reg 0) (.lit 32767#16) (.lit 3#16)).opcode ∈ [4, 5, 9, 10, 11, 12, 13, 14] ∧
      (Instr.mod (.reg 0) (.lit 32767#16) (.lit 3#16)).operands.head? = some (.reg 0) ∧
      (∀ o ∈ (Instr.mod (.reg 0) (.lit 32767#16) (.lit 3#16)).operands.tail, (start []).value o ≠ none) ∧
      exec (.mod (.reg 0) (.lit 32767#16) (.lit 3#16)) (start []) = .next t ∧
      (∀ o ∈ (Instr.mod (.reg 0) (.lit 32767#16) (.lit 3#16)).operands.drop 2, (start []).value o ≠ some 0#16) ∧
      ∀ o ∈ (Instr.mod (.reg 0) (.lit 32767#16) (.lit 3#16)).operands.tail, ∀ v, (start []).value o = some v →
        v.toNat < 32768) ∧
    ∃ t, (Instr.or (.reg 1) (.reg 0) (.lit 1#16)).opcode ∈ [4, 5, 9, 10, 11, 12, 13, 14] ∧
      (Instr.or (.reg 1) (.reg 0) (.lit 1#16)).operands.head? = some (.reg 1) ∧
      (∀ o ∈ (Instr.or (.reg 1) (.reg 0) (.lit 1#16)).operands.tail, (tight 32768#16 []).value o ≠ none) ∧
      exec (.or (.reg 1) (.reg 0) (.lit 1#16)) (tight 32768#16 []) = .next t ∧ 32768 ≤ (t.reg 1).toNat := by
  refine ⟨⟨_, by decide, by decide, by decide, rfl, by decide, ?_⟩, _, by decide, by decide, by decide, rfl, by decide⟩
  intro o ho v hv
  simp [Instr.operands] at ho
  rcases ho with rfl | rfl <;> simp [State.value] at hv <;> subst hv <;> decide

/-- The four words stand at the last place they fit. -/
theorem witness_BinaryAluStepFromRawWords :
    ∃ s : State, AtBoundary s ∧ s.pc.toNat + 3 < 32768 ∧
      (Memory.read s.mem (s.pc.toNat + 1)).toNat = 32768 + (7 : RegIdx).val ∧
      rawValue s (Memory.read s.mem (s.pc.toNat + 2)) = some 32767#16 ∧
      rawValue s (Memory.read s.mem (s.pc.toNat + 3)) = some 0#16 ∧
      (Memory.read s.mem s.pc.toNat).toNat = 9 ∧
      (9, 32767) ∈ [(4, if (32767#16 : Word) = 0#16 then 1 else 0), (5, if (32767#16).toNat > (0#16).toNat then 1 else 0),
        (9, ((32767#16).toNat + (0#16).toNat) % 32768), (10, ((32767#16).toNat * (0#16).toNat) % 32768),
        (12, (32767#16).toNat &&& (0#16).toNat), (13, (32767#16).toNat ||| (0#16).toNat)] :=
  ⟨atPc [(32764, 9#16), (32765, 32775#16), (32766, 32767#16), (32767, 32775#16)] 32764#16, ⟨rfl, rfl⟩,
    by decide, by decide, by decide, by decide, by decide, by decide⟩

theorem witness_JmpWritesThePc :
    (tight 65535#16 []).value (.reg 0) = some 65535#16 ∧ (start []).value (.lit 32767#16) = some 32767#16 ∧
    (start []).value (.invalid 32776#16) = none := by decide

theorem witness_ConditionalJumps :
    ((tight 32768#16 []).value (.reg 0) = some 32768#16 ∧ (start []).value (.lit 0#16) = some 0#16 ∧
      (start []).value (.lit 32767#16) = some 32767#16) ∧
    (start []).value (.invalid 32776#16) = none ∧ (start []).value (.invalid 65535#16) = none := by decide

theorem witness_CallPushesTheReturnAddress :
    ((tight 0#16 []).value (.lit 7#16) = some 7#16 ∧
      (tight 0#16 []).cfg.stackCapacity ≠ some (tight 0#16 []).stack.length) ∧
    ((start []).cfg.stackCapacity ≠ some (start []).stack.length) ∧
    (tight 0#16 [1#16]).value (.invalid 32776#16) = none ∧
    ((tight 0#16 [1#16]).value (.lit 7#16) = some 7#16 ∧
      (tight 0#16 [1#16]).cfg.stackCapacity = some (tight 0#16 [1#16]).stack.length) := by decide

theorem witness_RetPopsThePc : (tight 0#16 [65535#16]).stack = 65535#16 :: [] ∧ (start []).stack = [] := by decide

/-- A call at the end of memory to a `ret` at its start. -/
theorem witness_CallThenRetComesBack :
    AtBoundary (atPc [(0, 18#16), (32766, 17#16)] 32766#16) ∧
    NextIs (.call (.lit 0#16)) (atPc [(0, 18#16), (32766, 17#16)] 32766#16) ∧
    (atPc [(0, 18#16), (32766, 17#16)] 32766#16).value (.lit 0#16) = some 0#16 ∧
    (atPc [(0, 18#16), (32766, 17#16)] 32766#16).cfg.stackCapacity ≠
      some (atPc [(0, 18#16), (32766, 17#16)] 32766#16).stack.length ∧
    (0#16).toNat < 32768 ∧ Memory.read (atPc [(0, 18#16), (32766, 17#16)] 32766#16).mem (0#16).toNat = 18#16 :=
  ⟨⟨rfl, rfl⟩, ⟨_, rfl⟩, by decide, by decide, by decide, by decide⟩

theorem witness_RmemReadsOneWord :
    ((start []).value (.lit 32767#16) = some 32767#16 ∧ (32767#16).toNat < 32768) ∧ NoRegister (.lit 3#16) ∧
    (start []).value (.invalid 32776#16) = none ∧
    ((tight 32768#16 []).value (.reg 0) = some 32768#16 ∧ 32768 ≤ (32768#16).toNat) :=
  ⟨by decide, noRegister_lit _, by decide, by decide⟩

theorem witness_WmemWritesOneWord :
    ((start [9#16]).value (.lit 32767#16) = some 32767#16 ∧ (start [9#16]).value (.lit 0#16) = some 0#16 ∧
      (32767#16).toNat < 32768 ∧ (0#16).toNat < 32768 ∧ Memory.wf (start [9#16]).mem = true) ∧
    (start []).value (.invalid 32776#16) = none ∧
    ((tight 32768#16 []).value (.reg 0) = some 32768#16 ∧ 32768 ≤ (32768#16).toNat) := by decide

/-- The word written is the next opcode, and one more step runs it. -/
theorem witness_WmemIsSeenByTheNextFetch :
    AtBoundary (start [16#16, 3#16, 21#16]) ∧ Memory.wf (start [16#16, 3#16, 21#16]).mem = true ∧
    NextIs (.wmem (.lit 3#16) (.lit 21#16)) (start [16#16, 3#16, 21#16]) ∧
    (start [16#16, 3#16, 21#16]).value (.lit 3#16) = some 3#16 ∧
    (start [16#16, 3#16, 21#16]).value (.lit 21#16) = some 21#16 ∧ (3#16).toNat < 32768 ∧ 32767 < 32768 ∧
    ∃ t u, step (start [16#16, 3#16, 21#16]) = .next t ∧ LeavesCell (3#16).toNat [.tick] t ∧
      runEvents [.tick] t = .next u ∧ 3 < 4 ∧ 3 ≤ (3#16).toNat := by
  refine ⟨⟨rfl, rfl⟩, by decide, ⟨_, rfl⟩, by decide, by decide, by decide, by decide, _, _, rfl, ?_, rfl,
    by decide, by decide⟩
  refine ⟨rfl, ?_, fun _ _ => trivial⟩
  rintro _ addr val ea ⟨rest, h⟩
  cases h

end Sys2Proof.Tests
end

section
/-! PROOFS. What one instruction can do, said once for all 22: the inductive `Effect`, and the lemma that every next
state of `exec` is one of its kinds. Facts about `exec` are read off it by a case split on the kind of effect. -/

namespace Sys2Proof.Machine

open Sys2Proof.Claims

/-- What an instruction does to the state in which it executes: one constructor per kind of effect, with what the
kind says of the instruction, its operands and the state. -/
inductive Effect (i : Instr) (s : State) : State → Prop
  /-- One of the errors that R111 lists for the opcode. -/
  | error (e : FatalError) (he : e ∈ raisable i.opcode) : Effect i s (s.raise e)
  | halt (hi : i = .halt) : Effect i s s.haltRun
  /-- `noop`, and a conditional jump that is not taken. -/
  | nothing (hi : i.opcode ∈ [7, 8, 21]) (ht : transferTarget s i = none) : Effect i s s
  /-- `jmp`, and a conditional jump that is taken. -/
  | jump (a : Word) (hi : i.opcode ∈ [6, 7, 8]) (ht : transferTarget s i = some a) : Effect i s (s.setPc a)
  /-- The ten instructions that write a result to their destination and do nothing else. -/
  | write (d : RegIdx) (v : Word) (hi : i.opcode ∈ [1, 4, 5, 9, 10, 11, 12, 13, 14, 15])
      (hd : i.operands.head? = some (.reg d)) : Effect i s (s.setReg d v)
  | push (o : Operand) (v : Word) (hi : i = .push o) (hv : s.value o = some v) (hroom : s.stackFull = false) :
      Effect i s (s.stackPush v)
  | pop (d : RegIdx) (v : Word) (rest : List Word) (hi : i = .pop (.reg d)) (hs : s.stack = v :: rest) :
      Effect i s ((s.setStack rest).setReg d v)
  | call (o : Operand) (a : Word) (hi : i = .call o) (hv : s.value o = some a) (hroom : s.stackFull = false) :
      Effect i s ((s.stackPush s.pc).setPc a)
  | ret (a : Word) (rest : List Word) (hi : i = .ret) (hs : s.stack = a :: rest) :
      Effect i s ((s.setStack rest).setPc a)
  | store (addr val : Operand) (ea v : Word) (hi : i = .wmem addr val) (ha : s.value addr = some ea)
      (hv : s.value val = some v) (hlt : ea.toNat < 32768) : Effect i s (s.memWrite ea.toNat v)
  | output (o : Operand) (c : Word) (hi : i = .out o) (hv : s.value o = some c) : Effect i s (s.termWrite c)
  | input (d : RegIdx) (c : Word) (rest : List Word) (hi : i = .input (.reg d)) (ht : s.termIn = c :: rest) :
      Effect i s ((s.beginWait d).takeInput c rest)
  | wait (d : RegIdx) (hi : i = .input (.reg d)) (ht : s.termIn = []) : Effect i s (s.beginWait d)

section
variable {i : Instr} {s t : State} {dst a b : Operand}

/-- An error of a known instruction, looked up in R111's table. -/
theorem Effect.raise (e : FatalError) (he : e ∈ raisable i.opcode := by simp [raisable, Instr.opcode]) :
    Effect i s (s.raise e) := .error e he

/-- The opcodes of the instructions that write a function of one or two values and have no check of their own can
all raise both operand errors (R111). -/
theorem operandErrors_raisable (hi : i.opcode ∈ [1, 4, 5, 9, 10, 12, 13, 14]) :
    .invalidOperand ∈ raisable i.opcode ∧ .invalidRegisterTarget ∈ raisable i.opcode := by
  generalize i.opcode = c at hi
  simp only [List.mem_cons, List.not_mem_nil, or_false] at hi
  rcases hi with rfl | rfl | rfl | rfl | rfl | rfl | rfl | rfl <;> decide

/-- These opcodes only write their destination. -/
theorem writes_of_plain (hi : i.opcode ∈ [1, 4, 5, 9, 10, 12, 13, 14]) :
    i.opcode ∈ [1, 4, 5, 9, 10, 11, 12, 13, 14, 15] := by
  simp only [List.mem_cons, List.not_mem_nil, or_false] at hi ⊢
  omega

theorem effect_of_writeBinary {f : Word → Word → Word} (hi : i.opcode ∈ [1, 4, 5, 9, 10, 12, 13, 14])
    (hd : i.operands.head? = some dst) (h : writeBinary f dst a b s = .next t) : Effect i s t := by
  obtain ⟨hv, hr⟩ := operandErrors_raisable hi
  obtain ⟨d, va, vb, rfl, -, -, rfl⟩ | ⟨-, rfl⟩ | ⟨-, -, rfl⟩ := writeBinary_next h
  · exact .write d _ (writes_of_plain hi) hd
  · exact .error _ hr
  · exact .error _ hv

theorem effect_of_writeUnary {f : Word → Word} (hi : i.opcode ∈ [1, 4, 5, 9, 10, 12, 13, 14])
    (hd : i.operands.head? = some dst) (h : writeUnary f dst a s = .next t) : Effect i s t := by
  obtain ⟨hv, hr⟩ := operandErrors_raisable hi
  obtain ⟨d, va, rfl, -, rfl⟩ | ⟨-, rfl⟩ | ⟨-, -, rfl⟩ := writeUnary_next h
  · exact .write d _ (writes_of_plain hi) hd
  · exact .error _ hr
  · exact .error _ hv

end

/-- Every next state of an instruction is one of its kinds of effect. -/
theorem exec_effect {i : Instr} {s t : State} (h : exec i s = .next t) : Effect i s t := by
  cases i with
  | halt => rw [execHalt_next h]; exact .halt rfl
  | set dst val => exact effect_of_writeUnary (by simp [Instr.opcode]) rfl h
  | push val =>
    obtain ⟨v, hv, hf, rfl⟩ | ⟨-, rfl⟩ | ⟨-, -, rfl⟩ := execPush_next h
    · exact .push val v rfl hv hf
    · exact .raise _
    · exact .raise _
  | pop dst =>
    obtain ⟨d, v, rest, rfl, hs, rfl⟩ | ⟨-, rfl⟩ | ⟨-, -, rfl⟩ := execPop_next h
    · exact .pop d v rest rfl hs
    · exact .raise _
    · exact .raise _
  | eq dst a b => exact effect_of_writeBinary (by simp [Instr.opcode]) rfl h
  | gt dst a b => exact effect_of_writeBinary (by simp [Instr.opcode]) rfl h
  | jmp target =>
    obtain ⟨a, ha, rfl⟩ | ⟨-, rfl⟩ := execJmp_next h
    · exact .jump a (by simp [Instr.opcode]) ha
    · exact .raise _
  | jt cond target =>
    obtain ⟨c, a, hc, ha, rfl⟩ | ⟨-, rfl⟩ := execJt_next h
    · by_cases hz : c = 0#16
      · rw [if_pos hz]; exact .nothing (by simp [Instr.opcode]) (by simp [transferTarget, hc, hz])
      · rw [if_neg hz]; exact .jump a (by simp [Instr.opcode]) (by simp [transferTarget, hc, hz, ha])
    · exact .raise _
  | jf cond target =>
    obtain ⟨c, a, hc, ha, rfl⟩ | ⟨-, rfl⟩ := execJf_next h
    · by_cases hz : c = 0#16
      · rw [if_pos hz]; exact .jump a (by simp [Instr.opcode]) (by simp [transferTarget, hc, hz, ha])
      · rw [if_neg hz]; exact .nothing (by simp [Instr.opcode]) (by simp [transferTarget, hc, hz])
    · exact .raise _
  | add dst a b => exact effect_of_writeBinary (by simp [Instr.opcode]) rfl h
  | mult dst a b => exact effect_of_writeBinary (by simp [Instr.opcode]) rfl h
  | mod dst a b =>
    obtain ⟨d, va, vb, rfl, -, -, -, rfl⟩ | ⟨-, rfl⟩ | ⟨-, -, rfl⟩ | ⟨-, -, -, rfl⟩ := execMod_next h
    · exact .write d _ (by simp [Instr.opcode]) rfl
    · exact .raise _
    · exact .raise _
    · exact .raise _
  | and dst a b => exact effect_of_writeBinary (by simp [Instr.opcode]) rfl h
  | or dst a b => exact effect_of_writeBinary (by simp [Instr.opcode]) rfl h
  | not dst a => exact effect_of_writeUnary (by simp [Instr.opcode]) rfl h
  | rmem dst addr =>
    obtain ⟨d, ea, rfl, -, -, rfl⟩ | ⟨-, rfl⟩ | ⟨-, -, rfl⟩ | ⟨-, -, rfl⟩ := execRmem_next h
    · exact .write d _ (by simp [Instr.opcode]) rfl
    · exact .raise _
    · exact .raise _
    · exact .raise _
  | wmem addr val =>
    obtain ⟨ea, v, ha, hv, hlt, rfl⟩ | ⟨-, rfl⟩ | ⟨-, -, rfl⟩ := execWmem_next h
    · exact .store addr val ea v rfl ha hv hlt
    · exact .raise _
    · exact .raise _
  | call target =>
    obtain ⟨a, ha, hf, rfl⟩ | ⟨-, rfl⟩ | ⟨-, -, rfl⟩ := execCall_next h
    · exact .call target a rfl ha hf
    · exact .raise _
    · exact .raise _
  | ret =>
    obtain ⟨v, rest, hs, rfl⟩ | ⟨-, rfl⟩ := execRet_next h
    · exact .ret v rest rfl hs
    · exact .raise _
  | out val =>
    obtain ⟨c, hc, rfl⟩ | ⟨-, rfl⟩ := execOut_next h
    · exact .output val c rfl hc
    · exact .raise _
  | input dst =>
    obtain ⟨d, c, rest, rfl, ht, rfl⟩ | ⟨d, rfl, ht, rfl⟩ | ⟨-, rfl⟩ := execInput_next h
    · exact .input d c rest rfl ht
    · exact .wait d rfl ht
    · exact .raise _
  | noop => rw [execNoop_next h]; exact .nothing (by simp [Instr.opcode]) rfl

end Sys2Proof.Machine
end

section
/-! PROOFS. What a step at an instruction boundary answers, by what `decode` reads at the pc (R64, R69 to R75):
it executes the decoded instruction, or it ends with one of the three errors of fetching. -/

namespace Sys2Proof.Machine

open Sys2Proof.Claims

/-! ### The words at the pc -/

theorem wordsAt_of_ge {m : Memory} {p : Nat} (hp : 32768 ≤ p) : wordsAt m p = [] := by
  rw [wordsAt_eq, if_neg (by omega), if_neg (by omega), if_neg (by omega), if_neg (by omega)]

/-- At an address that names a cell the decoder is given its word and the next three, as far as memory reaches. -/
theorem wordsAt_of_lt {m : Memory} {p : Nat} (hp : p < 32768) :
    wordsAt m p = Memory.read m p ::
      (List.range (min 3 (32767 - p))).map (fun k => Memory.read m (p + 1 + k)) := by
  rw [wordsAt_eq]
  split
  · rw [show min 3 (32767 - p) = 3 by omega]; rfl
  · split
    · rw [show min 3 (32767 - p) = 2 by omega]; rfl
    · split
      · rw [show min 3 (32767 - p) = 1 by omega]; rfl
      · rw [show min 3 (32767 - p) = 0 by omega]; rfl

/-- Past the arity, what `decodeInstr` is given does not matter. -/
theorem decodeInstr_congr {c n : Nat} (hn : opcodeArity c = some n) {v w : Nat → Word}
    (h : ∀ k < n, v k = w k) : decodeInstr c (v 0) (v 1) (v 2) = decodeInstr c (w 0) (w 1) (w 2) := by
  unfold opcodeArity at hn
  split at hn <;> cases hn <;> simp [decodeInstr, h]

/-! ### `decode` at an address -/

section
variable {m : Memory} {p n : Nat}

theorem decodeAt_of_ge (hp : 32768 ≤ p) : decodeAt m p = .outOfWords := by
  rw [decodeAt, wordsAt_of_ge hp]; rfl

theorem decodeAt_of_noOpcode (hp : p < 32768) (ha : opcodeArity (Memory.read m p).toNat = none) :
    decodeAt m p = .invalidOpcode (Memory.read m p) := by
  simp [decodeAt, wordsAt_of_lt hp, decode, ha]

theorem decodeAt_of_cut (hp : p < 32768) (ha : opcodeArity (Memory.read m p).toNat = some n)
    (hn : 32768 ≤ p + n) : decodeAt m p = .outOfWords := by
  have hlt : min 3 (32767 - p) < n := by omega
  simp [decodeAt, wordsAt_of_lt hp, decode, ha, hlt]

/-- An instruction that fits decodes to the instruction of its opcode and the operand words after it. -/
theorem decodeAt_of_fits (ha : opcodeArity (Memory.read m p).toNat = some n) (hn : p + n < 32768) :
    ∃ i rest, decodeAt m p = .instr i rest ∧
      (∀ w : Nat → Word, (∀ k < n, w k = Memory.read m (p + 1 + k)) →
        decodeInstr (Memory.read m p).toNat (w 0) (w 1) (w 2) = some i) ∧
      i.opcode = (Memory.read m p).toNat ∧ i.arity = n ∧
      i.operands.map encodeOperand = (List.range n).map (fun k => Memory.read m (p + 1 + k)) := by
  have hn3 := (opcodeArity_some ha).2
  obtain ⟨i, hi, hop, har, hops⟩ := decodeInstr_of_arity ha
    (Memory.read m (p + 1 + 0)) (Memory.read m (p + 1 + 1)) (Memory.read m (p + 1 + 2))
  have hw : ∀ w : Nat → Word, (∀ k < n, w k = Memory.read m (p + 1 + k)) →
      decodeInstr (Memory.read m p).toNat (w 0) (w 1) (w 2) = some i := fun w h =>
    (decodeInstr_congr ha (w := fun k => Memory.read m (p + 1 + k)) h).trans hi
  have hlen : ¬ min 3 (32767 - p) < n := by omega
  refine ⟨i, ((List.range (min 3 (32767 - p))).map (fun k => Memory.read m (p + 1 + k))).drop n, ?_, hw, hop, har, ?_⟩
  · have hrest := hw
      (fun k => ((List.range (min 3 (32767 - p))).map (fun k => Memory.read m (p + 1 + k))).getD k 0#16)
      (fun k hk => by simp [show k < 3 ∧ k < 32767 - p by omega])
    simp only [decodeAt, wordsAt_of_lt (show p < 32768 by omega), decode, ha, List.length_map, List.length_range,
      hlen, if_false, hrest]
  · rw [hops]
    interval_cases n <;> rfl

/-- Only an instruction whose words all stand in memory decodes. -/
theorem fits_of_decodeAt {i : Instr} {rest : List Word} (h : decodeAt m p = .instr i rest) :
    opcodeArity (Memory.read m p).toNat = some i.arity ∧ p + i.arity < 32768 := by
  by_cases hp : 32768 ≤ p
  · simp [decodeAt_of_ge hp] at h
  · cases ha : opcodeArity (Memory.read m p).toNat with
    | none => simp [decodeAt_of_noOpcode (by omega) ha] at h
    | some n =>
      by_cases hn : p + n < 32768
      · obtain ⟨j, r, hj, -, -, rfl, -⟩ := decodeAt_of_fits ha hn
        cases hj.symm.trans h
        exact ⟨rfl, hn⟩
      · simp [decodeAt_of_cut (by omega) ha (by omega)] at h

end

/-! ### Fetching the operand words -/

/-- The pc and the operand latches do not show after an error. -/
theorem State.raise_setPc_latchOperand (s : State) (p : Word) (k : Nat) (w : Word) (e : FatalError) :
    (((s.setPc p).latchOperand k w).raise e).endStep = (s.raise e).endStep := by
  unfold State.latchOperand
  split <;> rfl

/-- The pc moves over a cell without wrapping. -/
theorem toNat_add_one_of_lt {p : Word} (hp : p.toNat < 32768) : (p + 1#16).toNat = p.toNat + 1 := by
  bv_omega

@[simp] theorem State.latchOperand_pc (s : State) (k : Nat) (w : Word) : (s.latchOperand k w).pc = s.pc := by
  unfold State.latchOperand
  split <;> rfl

/-- One operand word that stands in memory is fetched. -/
theorem State.fetchOperands_succ {s : State} {k n : Nat} (hp : s.pc.toNat < 32768) :
    s.fetchOperands k (n + 1) =
      ((s.setPc (s.pc + 1#16)).latchOperand k (Memory.read s.mem s.pc.toNat)).fetchOperands (k + 1) n := by
  rw [State.fetchOperands, State.fetchWord_of_lt hp]

/-- Operand words that reach past memory: the fetch fails, and only the pc and the operand latches have moved. -/
theorem State.fetchOperands_of_cut {s : State} {k n : Nat} (hp : s.pc.toNat ≤ 32768) (hn : 32768 < s.pc.toNat + n) :
    ∃ u, s.fetchOperands k n = (u, false) ∧ ∀ e, (u.raise e).endStep = (s.raise e).endStep := by
  induction n generalizing s k with
  | zero => omega
  | succ n ih =>
    by_cases hlt : s.pc.toNat < 32768
    · have hpc := toNat_add_one_of_lt hlt
      obtain ⟨u, hu, he⟩ := ih (s := (s.setPc (s.pc + 1#16)).latchOperand k (Memory.read s.mem s.pc.toNat))
        (k := k + 1) (by simp; omega) (by simp; omega)
      exact ⟨u, (State.fetchOperands_succ hlt).trans hu,
        fun e => (he e).trans (State.raise_setPc_latchOperand s _ k _ e)⟩
    · exact ⟨s, by rw [State.fetchOperands, State.fetchWord_of_ge (by omega)], fun _ => rfl⟩

/-- Operand words that fit are fetched into the latches 1..n. -/
theorem State.fetchOperands_of_fits {s : State} {n : Nat} (h3 : n ≤ 3) (hn : s.pc.toNat + n ≤ 32768) :
    s.fetchOperands 1 n =
      ({ s with
          pc := s.pc + BitVec.ofNat 16 n
          latch := { s.latch with
            w1 := if 0 < n then Memory.read s.mem (s.pc.toNat + 0) else s.latch.w1
            w2 := if 1 < n then Memory.read s.mem (s.pc.toNat + 1) else s.latch.w2
            w3 := if 2 < n then Memory.read s.mem (s.pc.toNat + 2) else s.latch.w3 } }, true) := by
  interval_cases n
  · simp [State.fetchOperands]
  · rw [State.fetchOperands_succ (by omega)]
    simp [State.fetchOperands, State.latchOperand, State.setPc]
  · rw [State.fetchOperands_succ (by omega), State.fetchOperands_succ (by simp; omega)]
    simp [State.fetchOperands, State.latchOperand, State.setPc, add_assoc,
      Nat.mod_eq_of_lt (show s.pc.toNat + 1 < 65536 by omega)]
  · rw [State.fetchOperands_succ (by omega), State.fetchOperands_succ (by simp; omega),
      State.fetchOperands_succ (by simp; omega)]
    simp [State.fetchOperands, State.latchOperand, State.setPc, add_assoc,
      Nat.mod_eq_of_lt (show s.pc.toNat + 1 < 65536 by omega), Nat.mod_eq_of_lt (show s.pc.toNat + 2 < 65536 by omega)]

/-! ### The cycle -/

/-- The state in which the opcode word at the pc is fetched and no operand word is. -/
def State.opcodeFetched (s : State) : State := s.beginStep.latchOpcode (Memory.read s.mem s.pc.toNat)

/-- The fetch of the opcode finds no cell (R74). -/
theorem State.cycle_of_ge {s : State} (hp : 32768 ≤ s.pc.toNat) :
    s.cycle = .next (s.beginStep.raise .fetchOutOfRange) := by
  rw [State.cycle, State.fetchWord_of_ge (by simpa using hp)]; rfl

/-- The opcode word is none of the 22 (R58). -/
theorem State.cycle_of_noOpcode {s : State} (hp : s.pc.toNat < 32768)
    (ha : opcodeArity (Memory.read s.mem s.pc.toNat).toNat = none) :
    s.cycle = .next (s.opcodeFetched.raise .invalidOpcode) := by
  simp [State.cycle, State.fetchWord_of_lt (s := s.beginStep) hp, ha]
  rfl

/-- The operand words reach past memory (R74). -/
theorem State.cycle_of_cut {s : State} {n : Nat} (hp : s.pc.toNat < 32768)
    (ha : opcodeArity (Memory.read s.mem s.pc.toNat).toNat = some n) (hn : 32768 ≤ s.pc.toNat + n) :
    finish s.cycle = .next (s.opcodeFetched.raise .fetchOutOfRange).endStep := by
  have hpc := toNat_add_one_of_lt hp
  obtain ⟨u, hu, he⟩ := State.fetchOperands_of_cut (k := 1) (n := n)
    (s := (s.beginStep.setPc (s.pc + 1#16)).latchOpcode (Memory.read s.mem s.pc.toNat)) (by simp; omega)
    (by simp; omega)
  simp [State.cycle, State.fetchWord_of_lt (s := s.beginStep) hp, ha, hu, fatal, finish, he]
  rfl

/-- What the latch of operand word k + 1 holds after the n words of the instruction at p are fetched. -/
def operandLatch (m : Memory) (p n k : Nat) : Word := if k < n then Memory.read m (p + 1 + k) else 0#16

/-- The state in which the opcode word and n operand words have been fetched from memory. -/
def State.wordsFetched (s : State) (n : Nat) : State :=
  { s with
    pc := s.pc + BitVec.ofNat 16 (1 + n)
    insnPc := s.pc
    latch :=
      { op := Memory.read s.mem s.pc.toNat
        opFetched := true
        w1 := operandLatch s.mem s.pc.toNat n 0
        w2 := operandLatch s.mem s.pc.toNat n 1
        w3 := operandLatch s.mem s.pc.toNat n 2 } }

/-- The operand fetches of a step whose words all stand in memory end in that state. -/
theorem State.fetchOperands_of_opcode {s : State} {n : Nat} (h3 : n ≤ 3) (hn : s.pc.toNat + n < 32768) :
    ((s.beginStep.setPc (s.pc + 1#16)).latchOpcode (Memory.read s.mem s.pc.toNat)).fetchOperands 1 n =
      (s.wordsFetched n, true) := by
  have hpc := toNat_add_one_of_lt (show s.pc.toNat < 32768 by omega)
  rw [State.fetchOperands_of_fits h3 (by simp; omega)]
  simp only [State.latchOpcode_mem, State.latchOpcode_pc, State.latchOpcode_latch, State.setPc_pc, State.setPc_mem,
    State.beginStep_mem, hpc, State.wordsFetched, operandLatch, BitVec.ofNat_add, ← add_assoc]
  rfl

/-- Words that are an instruction's encoding leave the state that `fetched` names. -/
theorem State.wordsFetched_eq_fetched {s : State} {i : Instr} (hop : i.opcode = (Memory.read s.mem s.pc.toNat).toNat)
    (hops : i.operands.map encodeOperand =
      (List.range i.arity).map (fun k => Memory.read s.mem (s.pc.toNat + 1 + k))) :
    s.wordsFetched i.arity = s.fetched i := by
  have hk (k : Nat) : (i.operands.map encodeOperand).getD k 0#16 = operandLatch s.mem s.pc.toNat i.arity k := by
    rw [hops, operandLatch]
    split <;> simp [*]
  simp only [State.wordsFetched, State.fetched, hk, Instr.opcodeWord, hop, BitVec.ofNat_toNat, BitVec.setWidth_eq]

/-- The instruction's words are fetched and it executes (R71). -/
theorem State.cycle_of_fits {s : State} {n : Nat}
    (ha : opcodeArity (Memory.read s.mem s.pc.toNat).toNat = some n) (hn : s.pc.toNat + n < 32768) :
    ∃ i rest, decodeAt s.mem s.pc.toNat = .instr i rest ∧ s.cycle = exec i (s.fetched i) := by
  obtain ⟨i, rest, hi, hw, hop, rfl, hops⟩ := decodeAt_of_fits ha hn
  refine ⟨i, rest, hi, ?_⟩
  have hd : decodeInstr (s.wordsFetched i.arity).latch.op.toNat (s.wordsFetched i.arity).latch.w1
      (s.wordsFetched i.arity).latch.w2 (s.wordsFetched i.arity).latch.w3 = some i :=
    hw (operandLatch s.mem s.pc.toNat i.arity) (fun k hk => if_pos hk)
  rw [← State.wordsFetched_eq_fetched hop hops, State.cycle,
    State.fetchWord_of_lt (s := s.beginStep) (show s.pc.toNat < 32768 by omega)]
  simp only [State.beginStep_mem, State.beginStep_pc, ha, State.fetchOperands_of_opcode (opcodeArity_some ha).2 hn, hd]

/-! ### The step -/

/-- With no stop request, a step of a running CORE is its cycle. -/
theorem step_of_atBoundary {s : State} (h : AtBoundary s) : step s = finish s.cycle := by
  obtain ⟨hr, hs⟩ := h
  simp [step, hr, hs]

/-- What a step at an instruction boundary does, by what is decoded at the pc: it executes the instruction (R71), or
it takes one of the errors of fetching (R58, R74). -/
theorem step_atBoundary_cases {s : State} (h : AtBoundary s) :
    (∃ i, NextIs i s ∧ step s = finish (exec i (s.fetched i))) ∨
      (32768 ≤ s.pc.toNat ∧ decodeAt s.mem s.pc.toNat = .outOfWords ∧
        step s = .next (s.beginStep.raise .fetchOutOfRange).endStep) ∨
      (s.pc.toNat < 32768 ∧ decodeAt s.mem s.pc.toNat = .outOfWords ∧
        step s = .next (s.opcodeFetched.raise .fetchOutOfRange).endStep) ∨
      (s.pc.toNat < 32768 ∧ decodeAt s.mem s.pc.toNat = .invalidOpcode (Memory.read s.mem s.pc.toNat) ∧
        step s = .next (s.opcodeFetched.raise .invalidOpcode).endStep) := by
  rw [step_of_atBoundary h]
  by_cases hp : s.pc.toNat < 32768
  · cases ha : opcodeArity (Memory.read s.mem s.pc.toNat).toNat with
    | none =>
      exact .inr (.inr (.inr ⟨hp, decodeAt_of_noOpcode hp ha, by rw [State.cycle_of_noOpcode hp ha]; rfl⟩))
    | some n =>
      by_cases hn : s.pc.toNat + n < 32768
      · obtain ⟨i, rest, hi, hc⟩ := State.cycle_of_fits ha hn
        exact .inl ⟨i, ⟨rest, hi⟩, by rw [hc]⟩
      · have hcut : 32768 ≤ s.pc.toNat + n := by omega
        exact .inr (.inr (.inl ⟨hp, decodeAt_of_cut hp ha hcut, State.cycle_of_cut hp ha hcut⟩))
  · have hge : 32768 ≤ s.pc.toNat := by omega
    exact .inr (.inl ⟨hge, decodeAt_of_ge hge, by rw [State.cycle_of_ge hge]; rfl⟩)

/-- What is decoded at the pc is one instruction. -/
theorem nextIs_unique {s : State} {i j : Instr} (hi : NextIs i s) (hj : NextIs j s) : i = j := by
  obtain ⟨_, hi⟩ := hi
  obtain ⟨_, hj⟩ := hj
  cases hi.symm.trans hj
  rfl

/-- A step at an instruction boundary executes the instruction that is decoded at the pc. -/
theorem step_of_nextIs {s : State} {i : Instr} (h : AtBoundary s) (hi : NextIs i s) :
    step s = finish (exec i (s.fetched i)) := by
  obtain ⟨rest, hd⟩ := hi
  obtain ⟨j, hj, hs⟩ | ⟨-, hn, -⟩ | ⟨-, hn, -⟩ | ⟨-, hn, -⟩ := step_atBoundary_cases h
  · rw [nextIs_unique ⟨rest, hd⟩ hj, hs]
  all_goals cases hd.symm.trans hn

/-- A step whose pc names no cell ends the run (R74). -/
theorem step_of_ge {s : State} (h : AtBoundary s) (hp : 32768 ≤ s.pc.toNat) :
    step s = .next (s.beginStep.raise .fetchOutOfRange).endStep := by
  rw [step_of_atBoundary h, State.cycle_of_ge hp]; rfl

/-- Everything one step can do: one constructor per kind of step. -/
inductive StepEffect (s : State) : State → Prop
  | outsideRun (hr : s.runState = .idle ∨ s.runState = .halted) : StepEffect s s
  | wait (hr : s.runState = .waitInput) (ht : s.termIn = []) : StepEffect s s
  | completeInput (c : Word) (rest : List Word) (hr : s.runState = .waitInput) (ht : s.termIn = c :: rest) :
      StepEffect s (s.takeInput c rest)
  | stop (hr : s.runState = .running) (hs : s.stopRequest = true) : StepEffect s s.stopRun
  | noCell (hb : AtBoundary s) (hp : 32768 ≤ s.pc.toNat) :
      StepEffect s (s.beginStep.raise .fetchOutOfRange).endStep
  /-- The opcode word is fetched, and it is no opcode or the operand words reach past memory. -/
  | fetchError (e : FatalError) (hb : AtBoundary s) (hp : s.pc.toNat < 32768)
      (he : (e = .fetchOutOfRange ∧ decodeAt s.mem s.pc.toNat = .outOfWords) ∨
        (e = .invalidOpcode ∧ decodeAt s.mem s.pc.toNat = .invalidOpcode (Memory.read s.mem s.pc.toNat))) :
      StepEffect s (s.opcodeFetched.raise e).endStep
  | execute (i : Instr) (u : State) (hb : AtBoundary s) (hi : NextIs i s) (hu : Effect i (s.fetched i) u) :
      StepEffect s u.endStep

/-- Every next state of a step is one of its kinds of effect. -/
theorem step_effect {s t : State} (h : step s = .next t) : StepEffect s t := by
  obtain ⟨hr, rfl⟩ | ⟨hr, rfl⟩ | ⟨hr, hs, rfl⟩ | ⟨hr, hs, -⟩ := step_next h
  · exact .outsideRun hr
  · cases ht : s.termIn with
    | nil => rw [State.tryInput_of_nil ht]; exact .wait hr ht
    | cons c rest => rw [State.tryInput_of_cons ht]; exact .completeInput c rest hr ht
  · exact .stop hr hs
  · have hb : AtBoundary s := ⟨hr, hs⟩
    obtain ⟨i, hi, he⟩ | ⟨hp, -, he⟩ | ⟨hp, hd, he⟩ | ⟨hp, hd, he⟩ := step_atBoundary_cases hb
    · obtain ⟨u, hu, rfl⟩ := finish_next (he.symm.trans h)
      exact .execute i u hb hi (exec_effect hu)
    · cases he.symm.trans h; exact .noCell hb hp
    · cases he.symm.trans h; exact .fetchError _ hb hp (.inl ⟨rfl, hd⟩)
    · cases he.symm.trans h; exact .fetchError _ hb hp (.inr ⟨rfl, hd⟩)

end Sys2Proof.Machine
end

section
/-! PROOFS. The invariant of `State.Inv` (R16, R21, R25 to R32, R76, R110, R112, R125) at reset, through every step and
through every transaction of the outside, and the outcome it gives a run (R30). -/

namespace Sys2Proof.Machine

open Sys2Proof.Claims

theorem FatalError.code_ne_zero (e : FatalError) : e.code ≠ 0#4 := by cases e <;> decide

theorem FatalError.code_le (e : FatalError) : e.code.toNat ≤ 8 := by cases e <;> decide

/-! ### What a run keeps until it reports an error -/

/-- The clauses of the invariant that hold through the fetches and the effects of a step, too: memory is canonical, the
stack fits, and no error has been reported. -/
structure State.Unreported (s : State) : Prop where
  memWf : Memory.wf s.mem = true
  stackFits : ∀ n, s.cfg.stackCapacity = some n → s.stack.length ≤ n
  noError : s.errCode = 0#4
  noReport : s.errPc = 0#16 ∧ s.errOpcode = 0#16 ∧ s.errOpcodeValid = false

/-- A state between two steps of a run, or inside one: besides, the CORE is running and nothing shows the run's end. -/
structure State.Executing (s : State) : Prop extends s.Unreported where
  running : s.runState = .running
  notHalted : s.halted = false
  notStopped : s.stopped = false
  inDestClear : s.inDest = 0

namespace State
variable {s : State}

/-- Without a report the invariant is what it says of the run state, the latches and `STOPPED`. -/
theorem Unreported.inv (h : s.Unreported) (hflag : s.halted = true ↔ (s.runState = .idle ∨ s.runState = .halted))
    (hlatch : s.latch = Latches.clear) (hdest : s.runState ≠ .waitInput → s.inDest = 0)
    (hstop : s.runState ≠ .halted → s.stopped = false) (hidle : s.runState ≠ .idle) : s.Inv where
  memWf := h.memWf
  haltedFlag := hflag
  latchClear := hlatch
  inDestClear := hdest
  noReportBeforeEnd hr := ⟨h.noError, hstop hr⟩
  codeInRange := by simp [h.noError]
  oneOutcome he := absurd h.noError he
  noErrorNoReport _ := h.noReport
  errorPc he := absurd h.noError he
  noOpcode he := absurd h.noError he
  stackFits := h.stackFits
  idleIsReset hr := absurd hr hidle

/-- A CORE in a run has reported nothing. -/
theorem Inv.unreported (h : s.Inv) (hr : s.runState ≠ .halted) : s.Unreported where
  memWf := h.memWf
  stackFits := h.stackFits
  noError := (h.noReportBeforeEnd hr).1
  noReport := h.noErrorNoReport (h.noReportBeforeEnd hr).1

theorem Inv.executing (h : s.Inv) (hr : s.runState = .running) : s.Executing where
  toUnreported := h.unreported (by simp [hr])
  running := hr
  notHalted := by have := h.haltedFlag; simpa [hr] using this
  notStopped := (h.noReportBeforeEnd (by simp [hr])).2
  inDestClear := h.inDestClear (by simp [hr])

/-- A run goes on from the end of the step. -/
theorem Executing.inv_endStep (h : s.Executing) : s.endStep.Inv :=
  Unreported.inv { h with } (by simp [h.running, h.notHalted]) rfl (fun _ => h.inDestClear) (fun _ => h.notStopped)
    (by simp [h.running])

/-- A fatal error ends the run; with no opcode word recorded only at a pc that names no cell. -/
theorem Executing.inv_raise {e : FatalError} (h : s.Executing)
    (hop : s.latch.opFetched = false → e = .fetchOutOfRange ∧ 32768 ≤ s.insnPc.toNat) : (s.raise e).endStep.Inv where
  memWf := h.memWf
  haltedFlag := by simp
  latchClear := rfl
  inDestClear _ := h.inDestClear
  noReportBeforeEnd hr := absurd rfl hr
  codeInRange := e.code_le
  oneOutcome _ := h.notStopped
  noErrorNoReport he := absurd he e.code_ne_zero
  errorPc _ := ⟨rfl, rfl⟩
  noOpcode _ hv := by
    have hf : s.latch.opFetched = false := hv
    obtain ⟨rfl, hp⟩ := hop hf
    exact ⟨by simp [hf], rfl, hp⟩
  stackFits := h.stackFits
  idleIsReset hr := by cases hr

/-- One more word fits where the stack is not full. -/
theorem Unreported.stackPush (h : s.Unreported) (hroom : s.stackFull = false) (v : Word) :
    (s.stackPush v).Unreported :=
  { h with
    stackFits := fun n hn => by
      have hfit := h.stackFits n hn
      have hne : s.stack.length ≠ n := fun e => by
        have := s.stackFull_iff.2 (e ▸ hn)
        simp [hroom] at this
      simp only [State.stackPush_stack, List.length_cons]
      omega }

theorem Unreported.pop (h : s.Unreported) {v : Word} {rest : List Word} (hs : s.stack = v :: rest) :
    (s.setStack rest).Unreported :=
  { h with
    stackFits := fun n hn => by
      have hfit := h.stackFits n hn
      simp only [hs, List.length_cons] at hfit
      simp only [State.setStack_stack]
      omega }

end State

/-! ### Every step keeps the invariant -/

/-- Whatever an instruction does, the invariant holds at the end of its step. -/
theorem Effect.inv_endStep {i : Instr} {s t : State} (h : Effect i s t) (hs : s.Executing)
    (hop : s.latch.opFetched = true) : t.endStep.Inv := by
  cases h with
  | error e => exact hs.inv_raise (by simp [hop])
  | halt =>
    exact State.Unreported.inv { hs with } (by simp) rfl (fun _ => hs.inDestClear) (by simp) (by simp)
  | nothing => exact hs.inv_endStep
  | jump a => exact State.Executing.inv_endStep { hs with }
  | write d v => exact State.Executing.inv_endStep { hs with }
  | push o v _ _ hroom => exact State.Executing.inv_endStep { hs with toUnreported := hs.stackPush hroom v }
  | pop d v rest _ hst => exact State.Executing.inv_endStep { hs with toUnreported := { hs.pop hst with } }
  | call o a _ _ hroom =>
    exact State.Executing.inv_endStep { hs with toUnreported := { hs.stackPush hroom s.pc with } }
  | ret a rest _ hst => exact State.Executing.inv_endStep { hs with toUnreported := { hs.pop hst with } }
  | store addr val ea v _ _ _ hlt =>
    exact State.Executing.inv_endStep { hs with memWf := Memory.wf_write v hs.memWf hlt }
  | output o c => exact State.Executing.inv_endStep { hs with }
  | input d c rest => exact State.Executing.inv_endStep { hs with running := rfl, inDestClear := rfl }
  | wait d =>
    exact State.Unreported.inv { hs with } (by simp [hs.notHalted]) rfl (by simp) (fun _ => hs.notStopped) (by simp)

/-- The invariant is kept by every step. -/
theorem step_inv {s t : State} (hs : s.Inv) (h : step s = .next t) : t.Inv := by
  cases step_effect h with
  | outsideRun => exact hs
  | wait => exact hs
  | completeInput c rest hr =>
    have hu := hs.unreported (by simp [hr])
    have hh := hs.haltedFlag
    exact State.Unreported.inv { hu with } (by simpa [hr] using hh) hs.latchClear (fun _ => rfl)
      (fun _ => (hs.noReportBeforeEnd (by simp [hr])).2) (by simp)
  | stop hr =>
    have he := hs.executing hr
    exact State.Unreported.inv { he with } (by simp) hs.latchClear (fun _ => he.inDestClear) (by simp) (by simp)
  | noCell hb hp =>
    exact State.Executing.inv_raise (s := s.beginStep) { hs.executing hb.1 with } (fun _ => ⟨rfl, hp⟩)
  | fetchError e hb =>
    exact State.Executing.inv_raise (s := s.opcodeFetched) { hs.executing hb.1 with } (fun hf => by cases hf)
  | execute i u hb _ hu =>
    exact hu.inv_endStep { hs.executing hb.1 with } rfl

/-- Settles O30: every kind of step leads to a state of the invariant. -/
theorem stepKeepsInvariant : Obligations.StepKeepsInvariant := fun _ _ hs h => step_inv hs h

end Sys2Proof.Machine
end

section
/-! PROOFS. No instruction reads a status field, `HALTED`, `RUN_STATE` or the stop level (R28, R29, R31): run with other
values of these, it answers the same state but for them. With the same values this says that every instruction
answers a next state. -/

namespace Sys2Proof.Machine

open Sys2Proof.Claims

/-- The state with the run state, flag, status fields and stop level of another. -/
def State.withStatusOf (s c : State) : State :=
  { s with
    runState := c.runState, halted := c.halted, errCode := c.errCode, errPc := c.errPc, errOpcode := c.errOpcode
    errOpcodeValid := c.errOpcodeValid, stopped := c.stopped, stopRequest := c.stopRequest }

/-- The pieces of the state that no instruction reads. -/
def statusParts : List Part :=
  [.runState, .haltedFlag, .errCode, .errPc, .errOpcode, .errOpcodeValid, .stopped, .stopRequest]

theorem onlyChanges_withStatusOf (s c : State) : OnlyChanges statusParts s (s.withStatusOf c) := by
  intro p hp
  cases p <;> simp [statusParts] at hp <;> rfl

/-- Both answers are next states, and they agree in all but the pieces that no instruction reads. -/
def AgreeingAnswers (a b : Answer) : Prop := ∃ t c, a = .next t ∧ b = .next (t.withStatusOf c)

section
variable (s c : State)

theorem agreeing_next {t u : State} (h : u = t.withStatusOf u) : AgreeingAnswers (.next t) (.next u) :=
  ⟨t, u, rfl, congrArg _ h⟩

theorem agreeing_fatal (e : FatalError) : AgreeingAnswers (fatal e s) (fatal e (s.withStatusOf c)) :=
  agreeing_next rfl

theorem value_withStatusOf (o : Operand) : (s.withStatusOf c).value o = s.value o := by cases o <;> rfl

theorem agreeing_withValue (o : Operand) {k l : Word → Answer} (h : ∀ v, AgreeingAnswers (k v) (l v)) :
    AgreeingAnswers (withValue o s k) (withValue o (s.withStatusOf c) l) := by
  unfold withValue
  rw [value_withStatusOf]
  cases s.value o with
  | none => exact agreeing_fatal s c _
  | some v => exact h v

theorem agreeing_withDest (o : Operand) {k l : RegIdx → Answer} (h : ∀ d, AgreeingAnswers (k d) (l d)) :
    AgreeingAnswers (withDest o s k) (withDest o (s.withStatusOf c) l) := by
  unfold withDest
  cases destOf o with
  | none => exact agreeing_fatal s c _
  | some d => exact h d

theorem agreeing_withAddress (ea : Word) {k l : Nat → Answer} (h : ∀ a, AgreeingAnswers (k a) (l a)) :
    AgreeingAnswers (withAddress ea s k) (withAddress ea (s.withStatusOf c) l) := by
  unfold withAddress
  split
  · exact agreeing_fatal s c _
  · exact h _

theorem agreeing_withRoom {k l : Answer} (h : AgreeingAnswers k l) :
    AgreeingAnswers (withRoom s k) (withRoom (s.withStatusOf c) l) := by
  unfold withRoom
  rw [show (s.withStatusOf c).stackFull = s.stackFull from rfl]
  split
  · exact agreeing_fatal s c _
  · exact h

theorem agreeing_withPop {k : Word → State → Answer}
    (h : ∀ v rest, AgreeingAnswers (k v (s.setStack rest)) (k v ((s.setStack rest).withStatusOf c))) :
    AgreeingAnswers (withPop s k) (withPop (s.withStatusOf c) k) := by
  unfold withPop
  rw [show (s.withStatusOf c).stack = s.stack from rfl]
  cases s.stack with
  | nil => exact agreeing_fatal s c _
  | cons v rest => exact h v rest

theorem agreeing_writeBinary (f : Word → Word → Word) (dst a b : Operand) :
    AgreeingAnswers (writeBinary f dst a b s) (writeBinary f dst a b (s.withStatusOf c)) :=
  agreeing_withDest s c dst fun _ => agreeing_withValue s c a fun _ => agreeing_withValue s c b fun _ =>
    agreeing_next rfl

theorem agreeing_writeUnary (f : Word → Word) (dst a : Operand) :
    AgreeingAnswers (writeUnary f dst a s) (writeUnary f dst a (s.withStatusOf c)) :=
  agreeing_withDest s c dst fun _ => agreeing_withValue s c a fun _ => agreeing_next rfl

theorem agreeing_jumpWhen (taken : Word → Bool) (cond target : Operand) :
    AgreeingAnswers (jumpWhen taken cond target s) (jumpWhen taken cond target (s.withStatusOf c)) :=
  agreeing_withValue s c cond fun v => agreeing_withValue s c target fun _ => agreeing_next (by cases taken v <;> rfl)

/-- The wait of `in`, and its completion, read only what the terminal has. -/
theorem tryInput_withStatusOf (d : RegIdx) :
    ((s.withStatusOf c).beginWait d).tryInput =
      (s.beginWait d).tryInput.withStatusOf ((s.withStatusOf c).beginWait d).tryInput := by
  cases ht : s.termIn with
  | nil =>
    rw [State.tryInput_of_nil (s := s.beginWait d) ht, State.tryInput_of_nil (s := (s.withStatusOf c).beginWait d) ht]
    rfl
  | cons v rest =>
    rw [State.tryInput_of_cons (s := s.beginWait d) ht, State.tryInput_of_cons (s := (s.withStatusOf c).beginWait d) ht]
    rfl

/-- The same instruction answers the same but for the pieces that no instruction reads. -/
theorem agreeing_exec (i : Instr) : AgreeingAnswers (exec i s) (exec i (s.withStatusOf c)) := by
  cases i with
  | halt => exact agreeing_next rfl
  | set dst val => exact agreeing_writeUnary s c _ dst val
  | push val => exact agreeing_withValue s c val fun _ => agreeing_withRoom s c (agreeing_next rfl)
  | pop dst => exact agreeing_withDest s c dst fun _ => agreeing_withPop s c fun _ _ => agreeing_next rfl
  | eq dst a b => exact agreeing_writeBinary s c _ dst a b
  | gt dst a b => exact agreeing_writeBinary s c _ dst a b
  | jmp target => exact agreeing_withValue s c target fun _ => agreeing_next rfl
  | jt cond target => exact agreeing_jumpWhen s c _ cond target
  | jf cond target => exact agreeing_jumpWhen s c _ cond target
  | add dst a b => exact agreeing_writeBinary s c _ dst a b
  | mult dst a b => exact agreeing_writeBinary s c _ dst a b
  | mod dst a b =>
    refine agreeing_withDest s c dst fun d => agreeing_withValue s c a fun va => agreeing_withValue s c b fun vb => ?_
    split
    · exact agreeing_fatal s c _
    · exact agreeing_next rfl
  | and dst a b => exact agreeing_writeBinary s c _ dst a b
  | or dst a b => exact agreeing_writeBinary s c _ dst a b
  | not dst a => exact agreeing_writeUnary s c _ dst a
  | rmem dst addr =>
    exact agreeing_withDest s c dst fun _ => agreeing_withValue s c addr fun ea =>
      agreeing_withAddress s c ea fun _ => agreeing_next rfl
  | wmem addr val =>
    exact agreeing_withValue s c addr fun ea => agreeing_withValue s c val fun _ =>
      agreeing_withAddress s c ea fun _ => agreeing_next rfl
  | call target => exact agreeing_withValue s c target fun _ => agreeing_withRoom s c (agreeing_next rfl)
  | ret =>
    exact agreeing_withPop s c (k := fun a u => .next (u.setPc a)) fun _ _ => agreeing_next rfl
  | out val => exact agreeing_withValue s c val fun _ => agreeing_next rfl
  | input dst => exact agreeing_withDest s c dst fun d => agreeing_next (tryInput_withStatusOf s c d)
  | noop => exact agreeing_next rfl

end

/-- Settles O38: the second state is the first with the status of a state that carries the given values. -/
theorem noInstructionReadsStatusOrFlags : Obligations.NoInstructionReadsStatusOrFlags := by
  intro i s rs h v st sr ec ep eo
  obtain ⟨t, c, ht, hc⟩ := agreeing_exec s
    { s with runState := rs, halted := h, errCode := ec, errPc := ep, errOpcode := eo, errOpcodeValid := v,
             stopped := st, stopRequest := sr } i
  exact ⟨t, _, ht, hc, onlyChanges_withStatusOf t c⟩

/-! ### Totality -/

/-- Every instruction answers a next state (R118). -/
theorem exec_total (i : Instr) (s : State) : ∃ t, exec i s = .next t := by
  obtain ⟨t, -, h, -⟩ := agreeing_exec s s i
  exact ⟨t, h⟩

/-- Every step answers a next state. -/
theorem step_total (s : State) : ∃ t, step s = .next t := by
  cases hr : s.runState with
  | idle => exact ⟨s, by simp [step, hr]⟩
  | halted => exact ⟨s, by simp [step, hr]⟩
  | waitInput => exact ⟨s.tryInput, by simp [step, hr]⟩
  | running =>
    cases hs : s.stopRequest with
    | true => exact ⟨s.stopRun, by simp [step, hr, hs]⟩
    | false =>
      obtain ⟨i, -, h⟩ | ⟨-, -, h⟩ | ⟨-, -, h⟩ | ⟨-, -, h⟩ := step_atBoundary_cases ⟨hr, hs⟩
      · obtain ⟨u, hu⟩ := exec_total i (s.fetched i)
        exact ⟨u.endStep, by rw [h, hu]; rfl⟩
      all_goals exact ⟨_, h⟩

end Sys2Proof.Machine
end

section
/-! PROOFS. Reset and the transactions of the outside keep the invariant (R35, R44, R125, R129, R130), every state of
the invariant has one outcome or none (R30), and so has every state reached from reset. -/

namespace Sys2Proof.Machine

open Sys2Proof.Claims

/-! ### Reset and the host -/

/-- The fields that reset leaves, because they are not the CORE's, do not matter to the invariant. -/
theorem inv_of_reset (cfg : Config) (stop : Bool) (codesIn codesOut : List Word) :
    ({ State.resetWith cfg with stopRequest := stop, termIn := codesIn, termOut := codesOut } : State).Inv where
  memWf := rfl
  haltedFlag := by simp [State.resetWith]
  latchClear := rfl
  inDestClear _ := rfl
  noReportBeforeEnd _ := ⟨rfl, rfl⟩
  codeInRange := Nat.zero_le 8
  oneOutcome he := absurd rfl he
  noErrorNoReport _ := ⟨rfl, rfl, rfl⟩
  errorPc he := absurd rfl he
  noOpcode he := absurd rfl he
  stackFits n _ := Nat.zero_le n
  idleIsReset _ := ⟨rfl, rfl, rfl, rfl⟩

theorem hostReset_inv (s : State) : s.hostReset.Inv := inv_of_reset _ _ _ _

theorem resetWith_inv (cfg : Config) : (State.resetWith cfg).Inv := inv_of_reset cfg false [] []

/-- A load is a write to a cell in `IDLE`, and nothing otherwise (R44, R45; log entry 11). -/
theorem hostLoad_cases (s : State) (a : Nat) (w : Word) :
    (s.runState = .idle ∧ a < 32768 ∧ s.hostLoad a w = s.memWrite a w) ∨ s.hostLoad a w = s := by
  unfold State.hostLoad
  cases hr : s.runState with
  | idle =>
    by_cases ha : a < 32768
    · exact .inl ⟨rfl, ha, by simp [ha]⟩
    · exact .inr (by simp [ha])
  | running => exact .inr rfl
  | waitInput => exact .inr rfl
  | halted => exact .inr rfl

/-- A start is performed in `IDLE`, and nothing otherwise (R129). -/
theorem hostStart_cases (s : State) :
    (s.runState = .idle ∧ s.hostStart = s.startRun) ∨ (s.runState ≠ .idle ∧ s.hostStart = s) := by
  unfold State.hostStart
  cases hr : s.runState with
  | idle => exact .inl ⟨rfl, rfl⟩
  | running => exact .inr ⟨by simp, rfl⟩
  | waitInput => exact .inr ⟨by simp, rfl⟩
  | halted => exact .inr ⟨by simp, rfl⟩

theorem hostLoad_inv {s : State} (hs : s.Inv) (a : Nat) (w : Word) : (s.hostLoad a w).Inv := by
  obtain ⟨-, ha, h⟩ | h := hostLoad_cases s a w
  · rw [h]; exact { hs with memWf := Memory.wf_write w hs.memWf ha }
  · rw [h]; exact hs

theorem hostStart_inv {s : State} (hs : s.Inv) : s.hostStart.Inv := by
  obtain ⟨hr, h⟩ | ⟨-, h⟩ := hostStart_cases s
  · rw [h]
    exact State.Unreported.inv { hs.unreported (by simp [hr]) with } (by simp) hs.latchClear
      (fun _ => hs.inDestClear (by simp [hr])) (fun _ => (hs.noReportBeforeEnd (by simp [hr])).2) (by simp)
  · rw [h]; exact hs

theorem hostAct_inv {s : State} (hs : s.Inv) (a : HostAction) : (hostAct a s).Inv := by
  cases a with
  | reset => exact hostReset_inv s
  | load a w => exact hostLoad_inv hs a w
  | start => exact hostStart_inv hs
  | stopLevel b => exact { hs with }
  | inputCode c => exact { hs with }
  | inputLine codes => exact { hs with }

/-! ### The outcome of a run -/

/-- The status fields of a state of the invariant show no outcome before the run has ended, and one of the three then. -/
theorem oneOutcome_of_inv {s : State} (hs : s.Inv) : OneOutcome s := by
  refine ⟨fun hr => ?_, fun hr => ?_⟩
  · unfold State.outcome
    cases h : s.runState with
    | halted => exact absurd h hr
    | idle => rfl
    | running => rfl
    | waitInput => rfl
  · by_cases he : s.errCode = 0#4
    · cases hst : s.stopped with
      | false => exact .inl ⟨he, rfl, by simp [State.outcome, hr, he, hst]⟩
      | true => exact .inr (.inl ⟨he, rfl, by simp [State.outcome, hr, he, hst]⟩)
    · have hst := hs.oneOutcome he
      exact .inr (.inr ⟨he, hst, by simp [State.outcome, hr, he, hst]⟩)

/-- A run of any events from a state of the invariant goes on, and ends in a state of the invariant. -/
theorem runEvents_inv (es : List Event) {s : State} (hs : s.Inv) : ∃ t, runEvents es s = .next t ∧ t.Inv := by
  induction es generalizing s with
  | nil => exact ⟨s, rfl, hs⟩
  | cons e es ih =>
    cases e with
    | host a => exact ih (hostAct_inv hs a)
    | tick =>
      obtain ⟨u, hu⟩ := step_total s
      rw [runEvents, hu]
      exact ih (step_inv hs hu)

/-! ### The obligations -/

/-- Settles O29. -/
theorem invariantHoldsAtReset : Obligations.InvariantHoldsAtReset := ⟨resetWith_inv _, resetWith_inv⟩

/-- Settles O32: steps and transactions lead to states of the invariant, and each of these has its outcome. -/
theorem invariantGivesExactlyOneOutcome : Obligations.InvariantGivesExactlyOneOutcome := fun _ hs =>
  ⟨oneOutcome_of_inv hs, fun _ h => oneOutcome_of_inv (step_inv hs h), fun a => oneOutcome_of_inv (hostAct_inv hs a)⟩

/-- Settles O33: the invariant holds at reset and along every sequence of events. -/
theorem everyEndedRunHasExactlyOneOutcome : Obligations.EveryEndedRunHasExactlyOneOutcome := by
  intro cfg es
  obtain ⟨t, ht, hi⟩ := runEvents_inv es (resetWith_inv cfg)
  exact ⟨t, ht, hi, oneOutcome_of_inv hi⟩

/-- Settles O1: the host's reset and `State.reset` differ only in fields that are not the CORE's. -/
theorem resetGivesEveryResetValue : Obligations.ResetGivesEveryResetValue := by
  intro s t ht
  have hreg (r : RegIdx) : (Vector.replicate 8 0#16)[r.val] = 0#16 := Vector.getElem_replicate r.isLt
  obtain rfl | rfl := ht <;>
    exact ⟨fun _ => rfl, hreg, rfl, rfl, rfl, rfl, rfl, rfl, rfl, rfl, rfl, rfl, rfl, rfl⟩

/-- Settles O6: the run state alone decides whether the host may read. -/
theorem hostReadsStateOnlyBetweenRuns : Obligations.HostReadsStateOnlyBetweenRuns := by
  intro s
  refine ⟨fun hr => ?_, fun hr => ?_⟩
  · refine ⟨{ pc := s.pc, regs := s.regs, stack := s.stack.reverse, mem := s.mem }, ?_, rfl, fun _ => rfl,
      s.stack.reverse_reverse, fun _ => rfl⟩
    obtain hr | hr := hr <;> simp [State.hostRead, hr]
  · obtain hr | hr := hr <;> simp [State.hostRead, hr]

end Sys2Proof.Machine
end

section
/-! PROOFS. What an instruction and a step can touch: registers (R17, R57), the stack (R20), the status fields (R29) and
the pc (R24). -/

namespace Sys2Proof.Machine

open Sys2Proof.Claims

/-! ### Registers -/

/-- A write to one register changes a register only if it is that one. -/
theorem eq_of_reg_setReg_ne {s : State} {d r : RegIdx} {v w : Word} (h : (s.setReg d v).reg r ≠ w) (hw : s.reg r = w) :
    r = d := by
  by_contra hne
  exact h ((State.reg_setReg_other s hne v).trans hw)

/-- An instruction changes only the register its destination names. -/
theorem Effect.writes_of_reg_ne {i : Instr} {s t : State} {r : RegIdx} (h : Effect i s t) (hr : t.reg r ≠ s.reg r) :
    i.opcode ∈ destinationOpcodes ∧ i.operands.head? = some (.reg r) := by
  cases h with
  | write d v hi hd =>
    rw [eq_of_reg_setReg_ne hr rfl]
    refine ⟨?_, hd⟩
    simp only [destinationOpcodes, List.mem_cons, List.not_mem_nil, or_false] at hi ⊢
    omega
  | pop d v rest hi =>
    rw [eq_of_reg_setReg_ne hr rfl, hi]
    exact ⟨by simp [Instr.opcode, destinationOpcodes], rfl⟩
  | input d c rest hi =>
    have hr : ((s.beginWait d).setReg d c).reg r ≠ s.reg r := hr
    rw [eq_of_reg_setReg_ne hr rfl, hi]
    exact ⟨by simp [Instr.opcode, destinationOpcodes], rfl⟩
  | error | halt | nothing | jump | push | call | ret | store | output | wait => exact absurd rfl hr

/-- Settles O35. -/
theorem onlyTheDestinationRegisterIsWritten : Obligations.OnlyTheDestinationRegisterIsWritten :=
  fun _ _ _ _ h hr => (exec_effect h).writes_of_reg_ne hr

/-! ### The stack -/

/-- Settles O36: of the kinds of effect two push one word and two pop one, and the others leave the stack. -/
theorem onlyFourInstructionsTouchTheStack : Obligations.OnlyFourInstructionsTouchTheStack := by
  intro i s t h hne
  cases exec_effect h with
  | push o v hi => exact .inl ⟨.inl (by rw [hi]; rfl), v, rfl⟩
  | call o a hi => exact .inl ⟨.inr (by rw [hi]; rfl), s.pc, rfl⟩
  | pop d v rest hi hs => exact .inr ⟨.inl (by rw [hi]; rfl), v, hs⟩
  | ret a rest hi hs => exact .inr ⟨.inr (by rw [hi]; rfl), a, hs⟩
  | error | halt | nothing | jump | write | store | output | input | wait => exact absurd rfl hne

/-! ### The status fields -/

/-- The five status fields (R29) are the same. -/
def SameStatus (s t : State) : Prop :=
  t.errCode = s.errCode ∧ t.errPc = s.errPc ∧ t.errOpcode = s.errOpcode ∧ t.errOpcodeValid = s.errOpcodeValid ∧
    t.stopped = s.stopped

/-- An instruction writes the status fields only by raising an error. -/
theorem Effect.raises_or_sameStatus {i : Instr} {s t : State} (h : Effect i s t) :
    (∃ e ∈ raisable i.opcode, t = s.raise e) ∨ SameStatus s t := by
  cases h with
  | error e he => exact .inl ⟨e, he, rfl⟩
  | halt | nothing | jump | write | push | pop | call | ret | store | output | input | wait =>
    exact .inr ⟨rfl, rfl, rfl, rfl, rfl⟩

/-- A step leaves the status fields, or stops the run on request, or ends it with an error. -/
theorem StepEffect.status_cases {s t : State} (h : StepEffect s t) :
    SameStatus s t ∨
      (s.runState = .running ∧ s.stopRequest = true ∧ t = s.stopRun) ∨
      (s.runState = .running ∧ t.runState = .halted ∧ t.stopped = s.stopped) := by
  cases h with
  | stop hr hs => exact .inr (.inl ⟨hr, hs, rfl⟩)
  | noCell hb | fetchError e hb => exact .inr (.inr ⟨hb.1, rfl, rfl⟩)
  | execute i u hb _ hu =>
    obtain ⟨e, -, rfl⟩ | h := hu.raises_or_sameStatus
    · exact .inr (.inr ⟨hb.1, rfl, rfl⟩)
    · exact .inl h
  | outsideRun | wait | completeInput => exact .inl ⟨rfl, rfl, rfl, rfl, rfl⟩

/-- Settles O26. -/
theorem statusIsWrittenOnlyAsTheRunEnds : Obligations.StatusIsWrittenOnlyAsTheRunEnds := by
  intro s t h
  obtain ⟨h1, h2, h3, h4, h5⟩ | ⟨hr, hs, rfl⟩ | ⟨hr, hh, hst⟩ := (step_effect h).status_cases
  · exact ⟨fun hne => by simp [h1, h2, h3, h4, h5] at hne, fun hne => absurd h5 hne⟩
  · exact ⟨fun _ => ⟨hr, rfl⟩, fun _ => ⟨hs, rfl, rfl⟩⟩
  · exact ⟨fun _ => ⟨hr, hh⟩, fun hne => absurd hst hne⟩

/-! ### The pc -/

/-- Only jumps, `call` and `ret` transfer control. -/
theorem transferTarget_eq_none {i : Instr} (s : State) (h : i.opcode ∉ [6, 7, 8, 17, 18]) :
    transferTarget s i = none := by
  cases i <;> simp [Instr.opcode] at h <;> rfl

theorem transferTarget_fetched (s : State) (i j : Instr) : transferTarget (s.fetched j) i = transferTarget s i := by
  cases i <;> rfl

/-- An instruction that raises no error leaves the pc at its target, or where it was if it transfers no control. -/
theorem Effect.raises_or_pc_eq {i : Instr} {s t : State} (h : Effect i s t) :
    (∃ e ∈ raisable i.opcode, t = s.raise e) ∨ t.pc = (transferTarget s i).getD s.pc := by
  cases h with
  | error e he => exact .inl ⟨e, he, rfl⟩
  | nothing _ ht => exact .inr (by rw [ht]; rfl)
  | jump a _ ht => exact .inr (by rw [ht]; rfl)
  | call o a hi hv => exact .inr (by rw [hi, transferTarget, hv]; rfl)
  | ret a rest hi hs => exact .inr (by rw [hi, transferTarget, hs]; rfl)
  | write d v hi =>
    have hn : i.opcode ∉ [6, 7, 8, 17, 18] := by
      simp only [List.mem_cons, List.not_mem_nil, or_false] at hi ⊢
      omega
    exact .inr (by rw [transferTarget_eq_none s hn]; rfl)
  | halt hi | push _ _ hi | pop _ _ _ hi | store _ _ _ _ hi | output _ _ hi | input _ _ _ hi | wait _ hi =>
    exact .inr (by rw [hi]; rfl)

/-- An instruction's words all stand in memory, so the address after it does not wrap. -/
theorem fetched_pc_toNat {s : State} {i : Instr} (hi : NextIs i s) :
    (s.fetched i).pc.toNat = s.pc.toNat + 1 + i.operands.length ∧ (s.fetched i).pc.toNat ≤ 32768 := by
  obtain ⟨rest, hi⟩ := hi
  have hfit := (fits_of_decodeAt hi).2
  rw [Instr.arity] at hfit
  simp only [State.fetched_pc, Instr.arity, BitVec.toNat_add, BitVec.toNat_ofNat]
  omega

/-- Settles O24. -/
theorem pcAfterAStep : Obligations.PcAfterAStep := by
  intro s t i hb _ hi h ht
  obtain ⟨u, hu, rfl⟩ := finish_next ((step_of_nextIs hb hi).symm.trans h)
  have hpc : u.pc = (transferTarget s i).getD (s.fetched i).pc := by
    rw [← transferTarget_fetched s i i]
    refine (exec_effect hu).raises_or_pc_eq.resolve_left ?_
    rintro ⟨e, -, rfl⟩
    exact e.code_ne_zero ht
  refine ⟨fun a ha => by simp [hpc, ha], fun hn => ?_, fun hge hb' => ⟨_, step_of_ge hb' hge, rfl, rfl⟩⟩
  have hpc' : u.endStep.pc = (s.fetched i).pc := by simp [hpc, hn]
  rw [hpc']
  exact fetched_pc_toNat hi

end Sys2Proof.Machine
end

section
/-! PROOFS. Memory (R16, R36): the list of cells read and written, its canonical form, and the writing of many words. -/

namespace Sys2Proof.Machine

open Sys2Proof.Claims

/-! ### The canonical form -/

theorem Memory.wfFrom_cons {lo k : Nat} {v : Word} {rest : Memory} :
    Memory.wfFrom lo ((k, v) :: rest) = true ↔
      lo ≤ k ∧ k < 32768 ∧ v ≠ 0#16 ∧ Memory.wfFrom (k + 1) rest = true := by
  simp [Memory.wfFrom, and_assoc]

@[simp] theorem Memory.read_cons_same (k : Nat) (v : Word) (rest : Memory) : Memory.read ((k, v) :: rest) k = v :=
  if_pos rfl

theorem Memory.read_cons_other {k a : Nat} (v : Word) (rest : Memory) (h : k ≠ a) :
    Memory.read ((k, v) :: rest) a = Memory.read rest a := if_neg h

/-- A canonical list holds nothing below the bound it starts from. -/
theorem Memory.read_of_lt {m : Memory} {lo a : Nat} (h : Memory.wfFrom lo m = true) (ha : a < lo) :
    Memory.read m a = 0#16 := by
  induction m generalizing lo with
  | nil => rfl
  | cons c rest ih =>
    obtain ⟨k, v⟩ := c
    obtain ⟨hk, -, -, hrest⟩ := Memory.wfFrom_cons.1 h
    rw [Memory.read_cons_other v rest (by omega)]
    exact ih hrest (by omega)

/-- Of two canonical lists that read the same, the second does not start above the first. -/
theorem Memory.head_le_of_reads_eq {lo lo' k k' : Nat} {v v' : Word} {rest rest' : Memory}
    (h : Memory.wfFrom lo ((k, v) :: rest) = true) (h' : Memory.wfFrom lo' ((k', v') :: rest') = true)
    (heq : ∀ a, Memory.read ((k, v) :: rest) a = Memory.read ((k', v') :: rest') a) : k' ≤ k := by
  obtain ⟨-, -, hv, -⟩ := Memory.wfFrom_cons.1 h
  obtain ⟨-, hcell'⟩ := Memory.wfFrom_cons.1 h'
  by_contra hlt
  have hread : Memory.read ((k', v') :: rest') k = 0#16 :=
    Memory.read_of_lt (Memory.wfFrom_cons.2 ⟨le_rfl, hcell'⟩) (by omega)
  exact hv ((Memory.read_cons_same k v rest).symm.trans ((heq k).trans hread))

/-- Canonical lists that read the same are the same list: their first cells agree, and so do the rests. -/
theorem Memory.eq_of_reads_eq {m m' : Memory} {lo lo' : Nat} (h : Memory.wfFrom lo m = true)
    (h' : Memory.wfFrom lo' m' = true) (heq : ∀ a, Memory.read m a = Memory.read m' a) : m = m' := by
  induction m generalizing m' lo lo' with
  | nil =>
    cases m' with
    | nil => rfl
    | cons c' rest' =>
      obtain ⟨k', v'⟩ := c'
      obtain ⟨-, -, hv', -⟩ := Memory.wfFrom_cons.1 h'
      exact absurd ((heq k').trans (Memory.read_cons_same k' v' rest')).symm hv'
  | cons c rest ih =>
    obtain ⟨k, v⟩ := c
    obtain ⟨-, -, hv, hrest⟩ := Memory.wfFrom_cons.1 h
    cases m' with
    | nil => exact absurd ((Memory.read_cons_same k v rest).symm.trans (heq k)) hv
    | cons c' rest' =>
      obtain ⟨k', v'⟩ := c'
      obtain ⟨-, -, -, hrest'⟩ := Memory.wfFrom_cons.1 h'
      obtain rfl : k = k' :=
        Nat.le_antisymm (Memory.head_le_of_reads_eq h' h fun a => (heq a).symm) (Memory.head_le_of_reads_eq h h' heq)
      obtain rfl : v = v' := by simpa using heq k
      rw [ih hrest hrest' fun a => ?_]
      by_cases hka : k = a
      · rw [Memory.read_of_lt hrest (by omega), Memory.read_of_lt hrest' (by omega)]
      · simpa [Memory.read_cons_other v _ hka] using heq a

/-- Settles O8. -/
theorem canonicalMemoriesWithEqualReadsAreEqual : Obligations.CanonicalMemoriesWithEqualReadsAreEqual :=
  fun _ _ h h' heq => Memory.eq_of_reads_eq h h' heq

/-! ### Writing many words -/

/-- Writing words at consecutive addresses leaves the cells below them and above them. -/
theorem Memory.read_writeAll_other (m : Memory) {a b : Nat} {ws : List Word} (h : b < a ∨ a + ws.length ≤ b) :
    Memory.read (Memory.writeAll m a ws) b = Memory.read m b := by
  induction ws generalizing m a with
  | nil => rfl
  | cons w ws ih =>
    rw [List.length_cons] at h
    rw [Memory.writeAll, ih _ (by omega), Memory.read_write_other m w (by omega)]

/-- Words written at consecutive addresses of memory read back in order. -/
theorem Memory.read_writeAll_same {m : Memory} {a k : Nat} {ws : List Word} (h : Memory.wf m = true)
    (ha : a + ws.length ≤ 32768) (hk : k < ws.length) :
    Memory.read (Memory.writeAll m a ws) (a + k) = ws.getD k 0#16 := by
  induction ws generalizing m a k with
  | nil => exact absurd hk (Nat.not_lt_zero k)
  | cons w ws ih =>
    rw [List.length_cons] at ha hk
    cases k with
    | zero => rw [Memory.writeAll, Memory.read_writeAll_other _ (by omega)]; exact Memory.read_write_same m a w 0 h
    | succ k =>
      rw [Memory.writeAll, show a + (k + 1) = a + 1 + k by omega, List.getD_cons_succ]
      exact ih (Memory.wf_write w h (by omega)) (by omega) (by omega)

/-- A write to memory changes its cell only. -/
theorem onlyChanges_memWrite (s : State) (a : Nat) (v : Word) : OnlyChanges [.cell a] s (s.memWrite a v) := by
  intro p hp
  cases p with
  | cell b => exact Memory.read_write_other s.mem v (by simpa using hp)
  | _ => rfl

end Sys2Proof.Machine
end

section
/-! PROOFS. The loader: one load (R44, R45), a program image (R44) and the bytes it comes from (R39, R46). -/

namespace Sys2Proof.Machine

open Sys2Proof.Claims

/-! ### One load -/

/-- In `IDLE` a load to an address that names a cell is a write to it. -/
theorem hostLoad_of_idle {s : State} {a : Nat} (hr : s.runState = .idle) (ha : a < 32768) (w : Word) :
    s.hostLoad a w = s.memWrite a w := by
  simp [State.hostLoad, hr, ha]

/-- A load in any other run state is refused. -/
theorem hostLoad_of_ne_idle {s : State} (hr : s.runState ≠ .idle) (a : Nat) (w : Word) : s.hostLoad a w = s :=
  (hostLoad_cases s a w).resolve_left fun h => hr h.1

/-- A load that is performed stores its word and changes nothing else. -/
theorem load_stores_one_word {s : State} {a : Nat} (hr : s.runState = .idle) (hm : Memory.wf s.mem = true)
    (ha : a < 32768) (w : Word) :
    Memory.read (hostAct (.load a w) s).mem a = w ∧ OnlyChanges [.cell a] s (hostAct (.load a w) s) := by
  rw [show hostAct (.load a w) s = s.memWrite a w from hostLoad_of_idle hr ha w]
  exact ⟨Memory.read_write_same s.mem a w 0 hm, onlyChanges_memWrite s a w⟩

/-- Settles O2. -/
theorem loadIsPerformedOnlyInIdle : Obligations.LoadIsPerformedOnlyInIdle := fun _ a w =>
  ⟨fun hr hm ha => load_stores_one_word hr hm ha w, fun hr => hostLoad_of_ne_idle hr a w⟩

/-! ### A program image -/

/-- In `IDLE`, loading words that fit writes them all, and nothing else changes. -/
theorem loadFrom_of_idle {s : State} {a : Nat} {ws : List Word} (hr : s.runState = .idle)
    (ha : a + ws.length ≤ 32768) : s.loadFrom a ws = { s with mem := Memory.writeAll s.mem a ws } := by
  induction ws generalizing s a with
  | nil => rfl
  | cons w ws ih =>
    rw [List.length_cons] at ha
    rw [State.loadFrom, hostLoad_of_idle hr (by omega), ih (by simpa using hr) (by omega)]
    rfl

theorem loadImage_of_idle {s : State} {image : List Word} (hr : s.runState = .idle) (h : image.length ≤ 32768) :
    s.loadImage image = { s with mem := Memory.writeAll s.mem 0 image } :=
  loadFrom_of_idle hr (by omega)

/-- Settles O3: an image is written at address 0, so its words read back in order and the cells after it do not
change; after reset these hold 0. -/
theorem imageIsPlacedVerbatim : Obligations.ImageIsPlacedVerbatim := by
  intro s image hr hm hlen
  rw [loadImage_of_idle hr hlen, loadImage_of_idle (s := s.hostReset) rfl hlen]
  refine ⟨fun k hk => ?_, fun k hk => ?_, fun k hk => ?_, fun p hp => ?_,
    fun _ w ha => load_stores_one_word hr hm ha w⟩
  · simpa using Memory.read_writeAll_same (a := 0) hm (by omega) hk
  · exact Memory.read_writeAll_other s.mem (by omega)
  · exact Memory.read_writeAll_other s.hostReset.mem (by omega)
  · cases p with
    | cell a => exact absurd rfl (hp a)
    | _ => rfl

/-! ### The bytes of an image -/

theorem wordsOfBytes_of_odd {bytes : List Byte} (h : bytes.length % 2 = 1) : wordsOfBytes bytes = none := by
  induction bytes using wordsOfBytes.induct with
  | case1 => simp at h
  | case2 b => rfl
  | case3 lo hi rest ih =>
    rw [wordsOfBytes, ih (by simp at h; omega)]
    rfl

/-- Two bytes, the least significant first, fit in a word. -/
theorem toNat_wordOfBytes (lo hi : Byte) :
    (BitVec.ofNat 16 (lo.toNat + 256 * hi.toNat)).toNat = lo.toNat + 256 * hi.toNat := by
  have := lo.isLt
  have := hi.isLt
  rw [BitVec.toNat_ofNat]
  omega

/-- An even number of bytes makes half as many words, each of two neighbouring bytes. -/
theorem wordsOfBytes_of_even {bytes : List Byte} (h : bytes.length % 2 = 0) :
    ∃ ws, wordsOfBytes bytes = some ws ∧ 2 * ws.length = bytes.length ∧
      ∀ k, k < ws.length → (ws.getD k 0#16).toNat =
        (bytes.getD (2 * k) 0#8).toNat + 256 * (bytes.getD (2 * k + 1) 0#8).toNat := by
  induction bytes using wordsOfBytes.induct with
  | case1 => exact ⟨[], rfl, rfl, fun k hk => absurd hk (Nat.not_lt_zero k)⟩
  | case2 b => simp at h
  | case3 lo hi rest ih =>
    obtain ⟨ws, hws, hlen, hk⟩ := ih (by simp at h; omega)
    refine ⟨_ :: ws, by rw [wordsOfBytes, hws]; rfl, by simp; omega, fun k hlt => ?_⟩
    cases k with
    | zero => exact toNat_wordOfBytes lo hi
    | succ k => exact hk k (Nat.lt_of_succ_lt_succ hlt)

/-- Settles O5: an odd number of bytes makes no words, and an even one makes half as many, which fit or do not. -/
theorem loaderWordsAreLittleEndian : Obligations.LoaderWordsAreLittleEndian := by
  intro bytes
  refine ⟨fun hodd => ?_, fun heven hlong => ?_, fun heven hfit => ?_⟩
  · rw [loadBytes, wordsOfBytes_of_odd hodd]
  · obtain ⟨ws, hws, hlen, -⟩ := wordsOfBytes_of_even heven
    have hlt : ¬ ws.length ≤ 32768 := by omega
    simp [loadBytes, hws, hlt]
  · obtain ⟨ws, hws, hlen, hk⟩ := wordsOfBytes_of_even heven
    have hle : ws.length ≤ 32768 := by omega
    exact ⟨ws, by simp [loadBytes, hws, hle], hlen, hk⟩

end Sys2Proof.Machine
end

section
/-! PROOFS. What an instruction can touch of memory (R37) and of the terminal (R38, R79, R80). -/

namespace Sys2Proof.Machine

open Sys2Proof.Claims

/-! ### Memory -/

/-- An instruction that changes the word at an address is a `wmem` to it. -/
theorem Effect.stores_of_read_ne {i : Instr} {s t : State} {a : Nat} (h : Effect i s t)
    (hne : Memory.read t.mem a ≠ Memory.read s.mem a) :
    ∃ addr val ea, i = .wmem addr val ∧ s.value addr = some ea ∧ a = ea.toNat := by
  cases h with
  | store addr val ea v hi ha =>
    refine ⟨addr, val, ea, hi, ha, ?_⟩
    by_contra hother
    exact hne (Memory.read_write_other s.mem v hother)
  | error | halt | nothing | jump | write | push | pop | call | ret | output | input | wait => exact absurd rfl hne

/-- Settles O34. -/
theorem onlyWmemWritesMemory : Obligations.OnlyWmemWritesMemory :=
  fun _ _ _ _ h hne => (exec_effect h).stores_of_read_ne hne

/-! ### The terminal -/

/-- The register whose input completes holds the code taken. -/
theorem State.takeInput_reg_inDest (s : State) (c : Word) (rest : List Word) :
    (s.takeInput c rest).reg s.inDest = c := State.reg_setReg_same s s.inDest c

/-- Settles O37: of the kinds of effect only an output appends a code, and only a completed input takes one. -/
theorem onlyOutAndInReachTheTerminal : Obligations.OnlyOutAndInReachTheTerminal := by
  intro i s t h
  cases exec_effect h with
  | output o c hi hv => exact ⟨fun _ => ⟨o, c, hi, hv, rfl⟩, fun hne => absurd rfl hne⟩
  | input d c rest hi ht =>
    exact ⟨fun hne => absurd rfl hne, fun _ => ⟨d, c, hi, ht, (s.beginWait d).takeInput_reg_inDest c rest⟩⟩
  | error | halt | nothing | jump | write | push | pop | call | ret | store | wait =>
    exact ⟨fun hne => absurd rfl hne, fun hne => absurd rfl hne⟩

end Sys2Proof.Machine
end

section
/-! PROOFS. A written word is seen by the fetches that follow (R49): what a step of `wmem` does, and that no event
changes a cell but a reset, a load in `IDLE` and a step of a `wmem` to it. -/

namespace Sys2Proof.Machine

open Sys2Proof.Claims

/-! ### A step of `wmem` -/

/-- The operands of an instruction have the same values before and after its words are fetched. -/
@[simp] theorem State.value_fetched (s : State) (i : Instr) (o : Operand) : (s.fetched i).value o = s.value o := by
  cases o <;> rfl

/-- A `wmem` whose operands resolve to a cell and a word writes the word there (R108). -/
theorem exec_wmem_of_lt {s : State} {addr val : Operand} {ea v : Word} (ha : s.value addr = some ea)
    (hv : s.value val = some v) (hlt : ea.toNat < 32768) :
    exec (.wmem addr val) s = .next (s.memWrite ea.toNat v) := by
  have hge : ¬ 32768 ≤ ea.toNat := by omega
  simp [exec, execWmem, withValue, withAddress, ha, hv, hge]

/-- A whole step of such a `wmem`. -/
theorem step_wmem_of_lt {s : State} {addr val : Operand} {ea v : Word} (hb : AtBoundary s)
    (hi : NextIs (.wmem addr val) s) (ha : s.value addr = some ea) (hv : s.value val = some v)
    (hlt : ea.toNat < 32768) :
    step s = .next ((s.fetched (.wmem addr val)).memWrite ea.toNat v).endStep := by
  rw [step_of_nextIs hb hi, exec_wmem_of_lt (by simpa using ha) (by simpa using hv) hlt]
  rfl

/-! ### What keeps a cell -/

/-- A step that changes the word at an address executes a `wmem` to it. -/
theorem StepEffect.stores_of_read_ne {s t : State} {a : Nat} (h : StepEffect s t)
    (hne : Memory.read t.mem a ≠ Memory.read s.mem a) :
    AtBoundary s ∧ ∃ addr val ea, NextIs (.wmem addr val) s ∧ s.value addr = some ea ∧ ea.toNat = a := by
  cases h with
  | execute i u hb hi hu =>
    obtain ⟨addr, val, ea, rfl, ha, rfl⟩ := hu.stores_of_read_ne hne
    exact ⟨hb, addr, val, ea, hi, by simpa using ha, rfl⟩
  | outsideRun | wait | completeInput | stop | noCell | fetchError => exact absurd rfl hne

/-- No instruction leads to `IDLE`. -/
theorem Effect.ne_idle {i : Instr} {s t : State} (h : Effect i s t) (hs : s.runState ≠ .idle) :
    t.runState ≠ .idle := by
  cases h with
  | error | halt | input | wait => exact RunState.noConfusion
  | nothing | jump | write | push | pop | call | ret | store | output => exact hs

/-- No step leads to `IDLE` (R124). -/
theorem StepEffect.ne_idle {s t : State} (h : StepEffect s t) (hs : s.runState ≠ .idle) : t.runState ≠ .idle := by
  cases h with
  | outsideRun | wait => exact hs
  | completeInput | stop | noCell | fetchError => exact RunState.noConfusion
  | execute i u hb hi hu => exact hu.ne_idle hs

/-- Once the CORE has left `IDLE`, the outside changes neither memory nor the run state but by a reset. -/
theorem hostAct_of_ne_idle {s : State} {a : HostAction} (hs : s.runState ≠ .idle) (ha : isReset (.host a) = false) :
    (hostAct a s).mem = s.mem ∧ (hostAct a s).runState = s.runState := by
  cases a with
  | reset => cases ha
  | load b w => rw [show hostAct (.load b w) s = s from hostLoad_of_ne_idle hs b w]; exact ⟨rfl, rfl⟩
  | start =>
    obtain ⟨hr, -⟩ | ⟨-, h⟩ := hostStart_cases s
    · exact absurd hr hs
    · rw [show hostAct .start s = s from h]; exact ⟨rfl, rfl⟩
  | stopLevel | inputCode | inputLine => exact ⟨rfl, rfl⟩

/-- A sequence of events is its first event and then the others. -/
theorem runEvents_cons {e : Event} {es : List Event} {s u : State} (h : runEvents (e :: es) s = .next u) :
    ∃ t, runEvents [e] s = .next t ∧ runEvents es t = .next u := by
  cases e with
  | host a => exact ⟨hostAct a s, rfl, h⟩
  | tick =>
    obtain ⟨t, ht⟩ := step_total s
    rw [runEvents, ht] at h
    exact ⟨t, by rw [runEvents, ht]; rfl, h⟩

/-- An event that is no reset does not lead back to `IDLE`, and changes a cell only as a step of a `wmem` to it. -/
theorem event_keeps_cell {e : Event} {s t : State} {a : Nat} (hs : s.runState ≠ .idle) (he : isReset e = false)
    (hw : AtBoundary s → ∀ addr val ea, NextIs (.wmem addr val) s → s.value addr = some ea → ea.toNat ≠ a)
    (h : runEvents [e] s = .next t) : t.runState ≠ .idle ∧ Memory.read t.mem a = Memory.read s.mem a := by
  cases e with
  | host b =>
    cases h
    obtain ⟨hm, hr⟩ := hostAct_of_ne_idle hs he
    exact ⟨by rwa [hr], by rw [hm]⟩
  | tick =>
    obtain ⟨u, hu⟩ := step_total s
    rw [runEvents, hu] at h
    cases h
    have hstep := step_effect hu
    refine ⟨hstep.ne_idle hs, ?_⟩
    by_contra hne
    obtain ⟨hb, addr, val, ea, hi, hv, hea⟩ := hstep.stores_of_read_ne hne
    exact hw hb addr val ea hi hv hea

/-- A run whose events leave a cell keeps its word. -/
theorem read_eq_of_leavesCell {es : List Event} {s u : State} {a : Nat} (hs : s.runState ≠ .idle)
    (hl : LeavesCell a es s) (h : runEvents es s = .next u) : Memory.read u.mem a = Memory.read s.mem a := by
  induction es generalizing s with
  | nil => cases h; rfl
  | cons e es ih =>
    obtain ⟨he, hw, hnext⟩ := hl
    obtain ⟨t, ht, hu⟩ := runEvents_cons h
    obtain ⟨hrun, hread⟩ := event_keeps_cell hs he hw ht
    exact (ih hrun (hnext t ht) hu).trans hread

/-! ### What a fetch sees -/

/-- The words at an address are those of its cell and the cells after it. -/
theorem wordsAt_getElem? {m : Memory} {p k : Nat} (hk : k < 4) (hp : p + k < 32768) :
    (wordsAt m p)[k]? = some (Memory.read m (p + k)) := by
  rw [wordsAt_of_lt (by omega)]
  cases k with
  | zero => rfl
  | succ k =>
    have hlt : k < min 3 (32767 - p) := by omega
    simp [hlt, show p + 1 + k = p + (k + 1) by omega]

/-- Settles O60: the step writes the cell behind its own fetches, and the events after it keep the word. -/
theorem wmemIsSeenByTheNextFetch : Obligations.WmemIsSeenByTheNextFetch := by
  intro s addr val ea v hb hm hi ha hv hlt
  have hsame : Memory.read (Memory.write s.mem ea.toNat v) ea.toNat = v := Memory.read_write_same s.mem _ v 0 hm
  refine ⟨_, step_wmem_of_lt hb hi ha hv hlt, (fetched_pc_toNat hi).1, hb, fun a hlow => ?_,
    fun es u hl hu k hk hle => ?_⟩
  · rw [wordsAt_of_lt hlow, List.head?_cons, State.endStep_mem, State.memWrite_mem, State.fetched_mem]
    split_ifs with h
    · rw [h, hsame]
    · rw [Memory.read_write_other s.mem v h]
  · rw [wordsAt_getElem? hk (by omega), Nat.sub_add_cancel hle, read_eq_of_leavesCell (by simp [hb.1]) hl hu]
    exact congrArg some hsame

end Sys2Proof.Machine
end

section
/-! PROOFS. The encoding (R51 to R56, R59): decoding undoes `encode`, and `encode` undoes decoding. -/

namespace Sys2Proof

/-! ### `decode`, `decodeInstr` and `opcodeArity` -/

/-- Words decode to an instruction exactly when they begin with an opcode and hold its operand words. -/
theorem decode_eq_instr_iff {ws rest : List Word} {i : Instr} :
    decode ws = .instr i rest ↔ ∃ op tl n, ws = op :: tl ∧ opcodeArity op.toNat = some n ∧ n ≤ tl.length ∧
      decodeInstr op.toNat (tl.getD 0 0#16) (tl.getD 1 0#16) (tl.getD 2 0#16) = some i ∧ tl.drop n = rest := by
  constructor
  · intro h
    cases ws with
    | nil => cases h
    | cons op tl =>
      rw [decode] at h
      split at h
      · cases h
      · next n ha =>
        split at h
        · cases h
        · next hn =>
          split at h
          · cases h
          · next j hi =>
            cases h
            exact ⟨op, tl, n, rfl, ha, Nat.not_lt.1 hn, hi, rfl⟩
  · rintro ⟨op, tl, n, rfl, ha, hn, hi, rfl⟩
    simp only [decode, ha, hi, Nat.not_lt.2 hn, if_false]

/-- The operands of a decoded instruction are the classes of its operand words (R51). -/
theorem operands_of_decodeInstr {c : Nat} {w1 w2 w3 : Word} {i : Instr} (h : decodeInstr c w1 w2 w3 = some i) :
    i.operands = ([w1, w2, w3].take i.arity).map decodeOperand := by
  unfold decodeInstr at h
  split at h <;> cases h <;> rfl

/-- Whatever is decoded is well-formed. -/
theorem wf_of_decodeInstr {c : Nat} {w1 w2 w3 : Word} {i : Instr} (h : decodeInstr c w1 w2 w3 = some i) :
    i.wf = true := by
  rw [Instr.wf, operands_of_decodeInstr h, List.all_map]
  exact List.all_eq_true.2 fun w _ => decodeOperand_wf w

/-- The opcode of every instruction is its opcode word, and has its arity (R56). -/
theorem opcodeArity_opcodeWord (i : Instr) : opcodeArity i.opcodeWord.toNat = some i.arity := by
  cases i <;> rfl

theorem opcodeWord_toNat (i : Instr) : i.opcodeWord.toNat = i.opcode := by
  cases i <;> rfl

/-- The opcode of a well-formed instruction and the words of its operands, with anything behind them, decode to it. -/
theorem decodeInstr_encode {i : Instr} (h : i.wf = true) (rest : List Word) :
    decodeInstr i.opcode ((i.operands.map encodeOperand ++ rest).getD 0 0#16)
      ((i.operands.map encodeOperand ++ rest).getD 1 0#16)
      ((i.operands.map encodeOperand ++ rest).getD 2 0#16) = some i := by
  have hop : ∀ o ∈ i.operands, decodeOperand (encodeOperand o) = o := fun o ho =>
    decodeOperand_encodeOperand (List.all_eq_true.1 h o ho)
  cases i with
  | halt | ret | noop => rfl
  | _ => simpa [Instr.opcode, Instr.operands, decodeInstr] using hop

/-! ### The obligations -/

/-- Settles O12: the opcode word names the arity, and each operand word is sorted back into its class. -/
theorem decodeOfEncodeIsTheInstruction : Obligations.DecodeOfEncodeIsTheInstruction := by
  intro i rest h
  have hlen : (i.operands.map encodeOperand).length = i.arity := List.length_map _
  refine decode_eq_instr_iff.2 ⟨i.opcodeWord, i.operands.map encodeOperand ++ rest, i.arity, rfl,
    opcodeArity_opcodeWord i, ?_, ?_, List.drop_left' hlen⟩
  · simp [Instr.arity]
  · rw [opcodeWord_toNat]
    exact decodeInstr_encode h rest

/-- The first three words of a list, cut at a length it has, are its own first words. -/
theorem take_getD_three {n : Nat} {ws : List Word} (h3 : n ≤ 3) (hn : n ≤ ws.length) :
    [ws.getD 0 0#16, ws.getD 1 0#16, ws.getD 2 0#16].take n = ws.take n := by
  refine List.ext_getElem (by simp; omega) fun k hk _ => ?_
  have hlt : k < n := by simp at hk; omega
  have hget : ws.getD k 0#16 = ws[k] := List.getD_eq_getElem _ _ (by omega)
  rw [List.getElem_take, List.getElem_take, ← hget]
  have hk3 : k < 3 := by omega
  interval_cases k <;> rfl

/-- Settles O13: the instruction has the opcode and the operand words that were read, and the rest is left over. -/
theorem encodeOfDecodeIsTheWords : Obligations.EncodeOfDecodeIsTheWords := by
  intro ws i rest h
  obtain ⟨op, tl, n, rfl, ha, hn, hi, rfl⟩ := decode_eq_instr_iff.1 h
  obtain ⟨j, hj, hop, -, hops⟩ := decodeInstr_of_arity ha (tl.getD 0 0#16) (tl.getD 1 0#16) (tl.getD 2 0#16)
  obtain rfl : j = i := Option.some.inj (hj.symm.trans hi)
  refine ⟨wf_of_decodeInstr hi, ?_⟩
  have hword : j.opcodeWord = op := BitVec.eq_of_toNat_eq ((opcodeWord_toNat j).trans hop)
  rw [encode, hword, hops, take_getD_three (opcodeArity_some ha).2 hn, List.cons_append, List.take_append_drop]

end Sys2Proof
end

section
/-! PROOFS. The class of a raw operand word, by its value and by its bits (R51, R52), what the resolver makes of it
(R60, R61, R63), and decoding words that are written out or stand at an address of memory (R56, R64). -/

namespace Sys2Proof

/-! ### The class of a raw word -/

theorem decodeOperand_eq_lit_iff {w : Word} : (∃ v, decodeOperand w = .lit v) ↔ w.toNat < 32768 := by
  obtain ⟨h, e⟩ | ⟨r, h, e⟩ | ⟨h, e⟩ := decodeOperand_cases w
  · simp [e, h]
  · simp [e, h]
  · simp [e, show ¬ w.toNat < 32768 by omega]

theorem decodeOperand_eq_reg_iff {w : Word} {r : RegIdx} : decodeOperand w = .reg r ↔ w.toNat = 32768 + r.val := by
  refine ⟨fun hr => ?_, decodeOperand_reg⟩
  rw [← encodeOperand_decodeOperand w, hr, encodeOperand, BitVec.toNat_ofNat]
  omega

/-- Bit 15 is clear exactly in the words below 2^15. -/
theorem bit15_eq_false_iff {w : Word} : w.getLsbD 15 = false ↔ w.toNat < 32768 := by
  rw [show w.getLsbD 15 = w.msb from rfl, BitVec.msb_eq_false_iff_two_mul_lt]
  omega

/-- The bits 15..3 of a word and its bits 2..0 are its quotient and remainder by 8. -/
theorem bits15_3_eq_iff {w : Word} : w.extractLsb' 3 13 = 4096#13 ↔ w.toNat / 8 = 4096 := by
  rw [← BitVec.toNat_inj, BitVec.extractLsb'_toNat, Nat.shiftRight_eq_div_pow, BitVec.toNat_ofNat]
  omega

theorem bits2_0_eq_iff {w : Word} {r : RegIdx} :
    w.extractLsb' 0 3 = BitVec.ofNat 3 r.val ↔ w.toNat % 8 = r.val := by
  rw [← BitVec.toNat_inj, BitVec.extractLsb'_toNat, Nat.shiftRight_zero, BitVec.toNat_ofNat]
  omega

/-- Settles O9: the bit patterns say the same of the word's value as the three ranges. -/
theorem operandClassIsTheWholeWords : Obligations.OperandClassIsTheWholeWords := by
  refine fun w => ⟨decodeOperand_lit, fun _ => decodeOperand_reg, decodeOperand_invalid,
    bit15_eq_false_iff.trans decodeOperand_eq_lit_iff.symm, ?_⟩
  simp only [bits15_3_eq_iff, decodeOperand_eq_reg_iff, bits2_0_eq_iff]
  constructor
  · intro h
    exact ⟨⟨w.toNat % 8, by omega⟩, by simp only; omega, rfl⟩
  · rintro ⟨r, hr, -⟩
    omega

/-! ### Written-out words -/

/-- Settles O11. -/
theorem writtenOutWordsDecode : Obligations.WrittenOutWordsDecode := by
  unfold Obligations.WrittenOutWordsDecode
  decide

end Sys2Proof

namespace Sys2Proof.Machine

open Sys2Proof.Claims

/-! ### The resolver -/

section
variable {s : State} {o : Operand}

/-- An operand without a value ends the step (R60). -/
theorem withValue_of_none (h : s.value o = none) (k : Word → Answer) :
    withValue o s k = .next (s.raise .invalidOperand) := by
  rw [withValue, h]; rfl

/-- An operand that names no register ends the step where a destination stands (R61). -/
theorem withDest_of_none (h : destOf o = none) (k : RegIdx → Answer) :
    withDest o s k = .next (s.raise .invalidRegisterTarget) := by
  rw [withDest, h]; rfl

theorem withValue_of_some {v : Word} (h : s.value o = some v) (k : Word → Answer) : withValue o s k = k v := by
  rw [withValue, h]

theorem withDest_reg (d : RegIdx) (s : State) (k : RegIdx → Answer) : withDest (.reg d) s k = k d := rfl

end

/-- Settles O10: the class of the word decides, and the resolver raises the error before it goes on. -/
theorem resolverFollowsRawWord : Obligations.ResolverFollowsRawWord := by
  refine fun s w => ⟨fun h => ?_, fun r h => ?_, fun h => ?_⟩
  · rw [decodeOperand_lit h]
    exact ⟨rfl, rfl, withDest_of_none rfl⟩
  · rw [decodeOperand_reg h]
    exact ⟨rfl, rfl⟩
  · rw [decodeOperand_invalid h]
    exact ⟨rfl, rfl, withValue_of_none rfl, withDest_of_none rfl⟩

/-! ### Decoding at an address -/

/-- The table of R56 and the model's arities agree. -/
theorem arities_getElem? (c : Nat) : arities[c]? = opcodeArity c := by
  by_cases h : c < 22
  · interval_cases c <;> rfl
  · rw [opcodeArity_none (by omega), List.getElem?_eq_none (by simp [arities]; omega)]

/-- Settles O14: the four cases are those of `decodeAt`. -/
theorem decodeAtAnAddressIsTotal : Obligations.DecodeAtAnAddressIsTotal := by
  refine fun m p => ⟨decodeAt_of_ge, fun hp hw => decodeAt_of_noOpcode hp (opcodeArity_none hw),
    fun n hp ha hn => ?_, fun n ha hn => ?_⟩
  · rw [arities_getElem?] at ha
    exact decodeAt_of_cut hp ha hn
  · rw [arities_getElem?] at ha
    obtain ⟨i, rest, hi, -, hop, -, hops⟩ := decodeAt_of_fits ha hn
    exact ⟨i, rest, hi, hop, hops⟩

end Sys2Proof.Machine
end

section
/-! PROOFS. Whole steps from raw words: the errors of fetching (R58, R74) and the binary ALU instructions (R69, R70,
R90 to R96). -/

namespace Sys2Proof.Machine

open Sys2Proof.Claims

/-! ### The errors of fetching -/

/-- A step whose opcode word is none of the 22 ends the run (R58). -/
theorem step_of_noOpcode {s : State} (h : AtBoundary s) (hp : s.pc.toNat < 32768)
    (ha : opcodeArity (Memory.read s.mem s.pc.toNat).toNat = none) :
    step s = .next (s.opcodeFetched.raise .invalidOpcode).endStep := by
  rw [step_of_atBoundary h, State.cycle_of_noOpcode hp ha]; rfl

/-- A step whose operand words reach past memory ends the run (R74). -/
theorem step_of_cut {s : State} {n : Nat} (h : AtBoundary s) (hp : s.pc.toNat < 32768)
    (ha : opcodeArity (Memory.read s.mem s.pc.toNat).toNat = some n) (hn : 32768 ≤ s.pc.toNat + n) :
    step s = .next (s.opcodeFetched.raise .fetchOutOfRange).endStep :=
  (step_of_atBoundary h).trans (State.cycle_of_cut hp ha hn)

/-- An error of fetching, whatever has been latched, changes only what an error writes, INSN_PC and the latches. -/
theorem onlyChanges_fetchError (s : State) (l : Latches) (e : FatalError) :
    OnlyChanges (.insnPc :: .latch :: errorParts) s (({ s.beginStep with latch := l } : State).raise e).endStep := by
  intro p hp
  cases p with
  | insnPc | latch | pc | runState | haltedFlag | errCode | errPc | errOpcode | errOpcodeValid =>
    simp [errorParts] at hp
  | _ => rfl

/-- Settles O19: in each case the step takes the error with the pc at INSN_PC. -/
theorem fetchErrorsEndTheRun : Obligations.FetchErrorsEndTheRun := by
  refine fun s hb => ⟨fun hp => ?_, fun n hp ha hn => ?_, fun hp hw => ?_⟩
  · exact ⟨_, step_of_ge hb hp, rfl, rfl, rfl, rfl, rfl, rfl, rfl, onlyChanges_fetchError s _ _⟩
  · rw [arities_getElem?] at ha
    exact ⟨_, step_of_cut hb hp ha hn, rfl, rfl, rfl, rfl, rfl, rfl, rfl, onlyChanges_fetchError s _ _⟩
  · exact ⟨_, step_of_noOpcode hb hp (opcodeArity_none hw), rfl, rfl, rfl, rfl, rfl, rfl, rfl,
      onlyChanges_fetchError s _ _⟩

/-! ### Frames -/

theorem onlyChanges_setReg (s : State) (d : RegIdx) (v : Word) : OnlyChanges [.reg d] s (s.setReg d v) := by
  intro p hp
  cases p with
  | reg r => exact State.reg_setReg_other s (by simpa using hp) v
  | _ => rfl

/-- Around what the instruction changes, its step changes only the pc, INSN_PC and the latches. -/
theorem onlyChanges_endStep {s u : State} {i : Instr} {ps : List Part} (h : OnlyChanges ps (s.fetched i) u) :
    OnlyChanges (ps ++ [.pc, .insnPc, .latch]) s u.endStep := by
  intro p hp
  rw [List.mem_append, not_or] at hp
  obtain ⟨hps, hfetch⟩ := hp
  have hsame := h p hps
  cases p with
  | pc | insnPc | latch => simp at hfetch
  | _ => exact hsame

/-! ### The binary ALU instructions -/

/-- A binary operation whose operands resolve writes its result to the destination. -/
theorem writeBinary_of_values {f : Word → Word → Word} {d : RegIdx} {a b : Operand} {s : State} {va vb : Word}
    (ha : s.value a = some va) (hb : s.value b = some vb) :
    writeBinary f (.reg d) a b s = .next (s.setReg d (f va vb)) := by
  rw [writeBinary, withDest_reg, withValue_of_some ha, withValue_of_some hb]

theorem aluEq_toNat (va vb : Word) : (aluEq va vb).toNat = if va = vb then 1 else 0 := by
  unfold aluEq; split <;> rfl

theorem aluGt_toNat (va vb : Word) : (aluGt va vb).toNat = if va.toNat > vb.toNat then 1 else 0 := by
  unfold aluGt; split <;> rfl

theorem aluAdd_toNat (va vb : Word) : (aluAdd va vb).toNat = (va.toNat + vb.toNat) % 32768 := by
  rw [aluAdd, BitVec.toNat_ofNat]; omega

theorem aluMult_toNat (va vb : Word) : (aluMult va vb).toNat = (va.toNat * vb.toNat) % 32768 := by
  rw [aluMult, BitVec.toNat_ofNat]; omega

theorem aluAnd_toNat (va vb : Word) : (aluAnd va vb).toNat = va.toNat &&& vb.toNat := BitVec.toNat_and _ _

theorem aluOr_toNat (va vb : Word) : (aluOr va vb).toNat = va.toNat ||| vb.toNat := BitVec.toNat_or _ _

/-- The opcode has three operands and its instruction writes `f` of the second and third to the first. -/
def IsBinaryAlu (code : Nat) (f : Word → Word → Word) : Prop :=
  opcodeArity code = some 3 ∧ ∀ w1 w2 w3 : Word, ∃ i, decodeInstr code w1 w2 w3 = some i ∧
    ∀ s, exec i s = writeBinary f (decodeOperand w1) (decodeOperand w2) (decodeOperand w3) s

/-- The result that stands beside an opcode in the table of R90 to R96 is that of the opcode's operation. -/
theorem exists_isBinaryAlu {va vb : Word} {code r : Nat}
    (h : (code, r) ∈ [(4, if va = vb then 1 else 0), (5, if va.toNat > vb.toNat then 1 else 0),
      (9, (va.toNat + vb.toNat) % 32768), (10, (va.toNat * vb.toNat) % 32768),
      (12, va.toNat &&& vb.toNat), (13, va.toNat ||| vb.toNat)]) :
    ∃ f, IsBinaryAlu code f ∧ (f va vb).toNat = r := by
  simp only [List.mem_cons, Prod.mk.injEq, List.not_mem_nil, or_false] at h
  obtain ⟨rfl, rfl⟩ | ⟨rfl, rfl⟩ | ⟨rfl, rfl⟩ | ⟨rfl, rfl⟩ | ⟨rfl, rfl⟩ | ⟨rfl, rfl⟩ := h
  · exact ⟨aluEq, ⟨rfl, fun _ _ _ => ⟨_, rfl, fun _ => rfl⟩⟩, aluEq_toNat va vb⟩
  · exact ⟨aluGt, ⟨rfl, fun _ _ _ => ⟨_, rfl, fun _ => rfl⟩⟩, aluGt_toNat va vb⟩
  · exact ⟨aluAdd, ⟨rfl, fun _ _ _ => ⟨_, rfl, fun _ => rfl⟩⟩, aluAdd_toNat va vb⟩
  · exact ⟨aluMult, ⟨rfl, fun _ _ _ => ⟨_, rfl, fun _ => rfl⟩⟩, aluMult_toNat va vb⟩
  · exact ⟨aluAnd, ⟨rfl, fun _ _ _ => ⟨_, rfl, fun _ => rfl⟩⟩, aluAnd_toNat va vb⟩
  · exact ⟨aluOr, ⟨rfl, fun _ _ _ => ⟨_, rfl, fun _ => rfl⟩⟩, aluOr_toNat va vb⟩

/-- The value of a raw word is that of the operand it decodes to (R60). -/
theorem rawValue_eq (s : State) (w : Word) : rawValue s w = s.value (decodeOperand w) := by
  unfold rawValue decodeOperand
  split_ifs <;> rfl

/-- A step of a binary ALU instruction whose words stand in memory. -/
theorem step_binaryAlu {s : State} {d : RegIdx} {va vb : Word} {f : Word → Word → Word} (hb : AtBoundary s)
    (hp : s.pc.toNat + 3 < 32768) (hop : IsBinaryAlu (Memory.read s.mem s.pc.toNat).toNat f)
    (hd : (Memory.read s.mem (s.pc.toNat + 1)).toNat = 32768 + d.val)
    (ha : rawValue s (Memory.read s.mem (s.pc.toNat + 2)) = some va)
    (hv : rawValue s (Memory.read s.mem (s.pc.toNat + 3)) = some vb) :
    ∃ i, NextIs i s ∧ i.arity = 3 ∧ step s = .next ((s.fetched i).setReg d (f va vb)).endStep := by
  obtain ⟨har, hdec⟩ := hop
  obtain ⟨i, rest, hi, hw, -, hlen, -⟩ := decodeAt_of_fits har hp
  obtain ⟨j, hj, hexec⟩ := hdec (Memory.read s.mem (s.pc.toNat + 1)) (Memory.read s.mem (s.pc.toNat + 2))
    (Memory.read s.mem (s.pc.toNat + 3))
  have hdecoded := hw (fun k => Memory.read s.mem (s.pc.toNat + 1 + k)) fun _ _ => rfl
  obtain rfl : i = j := Option.some.inj (hdecoded.symm.trans hj)
  rw [rawValue_eq] at ha hv
  refine ⟨i, ⟨rest, hi⟩, hlen, ?_⟩
  rw [step_of_nextIs hb ⟨rest, hi⟩, hexec, decodeOperand_reg hd,
    writeBinary_of_values ((s.value_fetched i _).trans ha) ((s.value_fetched i _).trans hv)]
  rfl

/-- Settles O52: each opcode of the table is a binary operation, and its step writes the result and nothing else. -/
theorem binaryAluStepFromRawWords : Obligations.BinaryAluStepFromRawWords := by
  rintro s d va vb hb hp hd ha hv code r rfl hr
  obtain ⟨f, hop, rfl⟩ := exists_isBinaryAlu hr
  obtain ⟨i, hi, hlen, hstep⟩ := step_binaryAlu hb hp hop hd ha hv
  have hpc := (fetched_pc_toNat hi).1
  rw [show i.operands.length = 3 from hlen] at hpc
  exact ⟨_, hstep, congrArg BitVec.toNat (State.reg_setReg_same _ d _), hpc, rfl,
    onlyChanges_endStep (onlyChanges_setReg _ d _)⟩

end Sys2Proof.Machine
end

section
/-! PROOFS. The cycle of the CORE: what it does in each run state (R66, R68, R69), what raising an error records (R76,
R110), and how a run ends (R78). -/

namespace Sys2Proof.Machine

open Sys2Proof.Claims

/-- Settles O15. -/
theorem stepRunsTheDecodedInstruction : Obligations.StepRunsTheDecodedInstruction :=
  fun _ _ hb hi => step_of_nextIs hb hi

/-! ### The step by run state -/

section
variable {s : State}

/-- In `IDLE` and `HALTED` there is no step (R66; log entry 4). -/
theorem step_of_outsideRun (hr : s.runState = .idle ∨ s.runState = .halted) : step s = .next s := by
  obtain hr | hr := hr <;> rw [step, hr]

/-- A waiting `in` with no code goes on waiting (R66, R80; log entry 4). -/
theorem step_of_waiting (hr : s.runState = .waitInput) (ht : s.termIn = []) : step s = .next s := by
  rw [step, hr]
  exact congrArg _ (State.tryInput_of_nil ht)

/-- A waiting `in` takes the oldest code (R83). -/
theorem step_of_code {c : Word} {rest : List Word} (hr : s.runState = .waitInput) (ht : s.termIn = c :: rest) :
    step s = .next (s.takeInput c rest) := by
  rw [step, hr]
  exact congrArg _ (State.tryInput_of_cons ht)

/-- In `RUNNING` an asserted stop request is honoured (R68). -/
theorem step_of_stopRequest (hr : s.runState = .running) (hs : s.stopRequest = true) : step s = .next s.stopRun := by
  rw [step, hr]
  exact if_pos hs

end

/-! ### The stop request -/

/-- Honouring a stop request only ends the run. -/
theorem onlyChanges_stopRun (s : State) : OnlyChanges [.haltedFlag, .stopped, .runState] s s.stopRun := by
  intro p hp
  cases p with
  | haltedFlag | stopped | runState => simp at hp
  | _ => rfl

/-- Settles O16: a stop is honoured in `RUNNING`, to which the completion of a waiting `in` leads with the stop
request still asserted. -/
theorem stopIsHonouredOnlyAtBoundaries : Obligations.StopIsHonouredOnlyAtBoundaries := by
  refine fun s => ⟨fun hr hs => ?_, step_of_waiting, fun c rest hr ht hs => ?_⟩
  · exact ⟨s.stopRun, step_of_stopRequest hr hs, rfl, rfl, rfl, onlyChanges_stopRun s⟩
  · exact ⟨s.takeInput c rest, (s.takeInput c rest).stopRun, step_of_code hr ht, rfl, rfl,
      step_of_stopRequest rfl hs, rfl, rfl, rfl⟩

/-! ### INSN_PC -/

/-- No instruction writes INSN_PC (R25). -/
theorem Effect.insnPc_eq {i : Instr} {s t : State} (h : Effect i s t) : t.insnPc = s.insnPc := by
  cases h <;> rfl

/-- A step at an instruction boundary samples the pc into INSN_PC, whether it executes or takes an error (R69). -/
theorem StepEffect.insnPc_eq_pc {s t : State} (h : StepEffect s t) (hb : AtBoundary s) : t.insnPc = s.pc := by
  obtain ⟨hr, hs⟩ := hb
  cases h with
  | execute i u _ _ hu => exact hu.insnPc_eq
  | noCell | fetchError => rfl
  | outsideRun hr' => simp [hr] at hr'
  | wait hr' | completeInput _ _ hr' => simp [hr] at hr'
  | stop _ hs' => simp [hs] at hs'

/-- Settles O17. -/
theorem nothingHappensOutsideARun : Obligations.NothingHappensOutsideARun := by
  refine fun s => ⟨fun hr => step_of_outsideRun (.inl hr), fun hr => step_of_outsideRun (.inr hr), step_of_waiting,
    fun hb => ?_⟩
  obtain ⟨t, ht⟩ := step_total s
  exact ⟨t, ht, (step_effect ht).insnPc_eq_pc hb⟩

/-! ### Raising an error -/

/-- An error writes its report, the pc and the end of the run (R76). -/
theorem onlyChanges_raise (s : State) (e : FatalError) : OnlyChanges errorParts s (s.raise e) := by
  intro p hp
  cases p with
  | pc | runState | haltedFlag | errCode | errPc | errOpcode | errOpcodeValid => simp [errorParts] at hp
  | _ => rfl

/-- Settles O20: whether an opcode word is recorded is whether its fetch has latched one. -/
theorem raiseRecordsTheErrorAndHalts : Obligations.RaiseRecordsTheErrorAndHalts :=
  fun s => ⟨rfl, fun e => ⟨rfl, rfl, fun hf => ⟨by simp [hf], hf⟩, fun hf => ⟨by simp [hf], hf⟩, rfl, rfl,
    onlyChanges_raise s e⟩⟩

/-! ### The end of a run -/

/-- An instruction ends the run by an error or by being `halt`. -/
theorem Effect.raises_or_halts {i : Instr} {s t : State} (h : Effect i s t) (hs : s.runState ≠ .halted)
    (ht : t.runState = .halted) : (∃ e, t = s.raise e) ∨ (i = .halt ∧ t = s.haltRun) := by
  cases h with
  | error e => exact .inl ⟨e, rfl⟩
  | halt hi => exact .inr ⟨hi, rfl⟩
  | input | wait => cases ht
  | nothing | jump | write | push | pop | call | ret | store | output => exact absurd ht hs

/-- A step that ends a run honours a stop request, takes an error or executes `halt` (R78); only the stop sets
`STOPPED`, and only the error writes its code. -/
theorem StepEffect.end_cases {s t : State} (h : StepEffect s t) (hs : s.runState ≠ .halted)
    (ht : t.runState = .halted) :
    (s.runState = .running ∧ s.stopRequest = true ∧ t.stopped = true ∧ t.errCode = s.errCode) ∨
      (AtBoundary s ∧ t.stopped = s.stopped ∧
        (t.errCode ≠ 0#4 ∨ (t.errCode = s.errCode ∧ NextIs .halt s))) := by
  cases h with
  | outsideRun | wait => exact absurd ht hs
  | completeInput => cases ht
  | stop hr hstop => exact .inl ⟨hr, hstop, rfl, rfl⟩
  | noCell hb => exact .inr ⟨hb, rfl, .inl (FatalError.code_ne_zero .fetchOutOfRange)⟩
  | fetchError e hb => exact .inr ⟨hb, rfl, .inl e.code_ne_zero⟩
  | execute i u hb hi hu =>
    obtain ⟨e, rfl⟩ | ⟨rfl, rfl⟩ := hu.raises_or_halts hs ht
    · exact .inr ⟨hb, rfl, .inl e.code_ne_zero⟩
    · exact .inr ⟨hb, rfl, .inr ⟨rfl, hi⟩⟩

/-- Settles O25: before the step no error and no stop is recorded. -/
theorem runEndsOnlyByHaltErrorOrStop : Obligations.RunEndsOnlyByHaltErrorOrStop := by
  intro s t he hst h hs ht
  obtain ⟨hr, hstop, hst', he'⟩ | ⟨⟨hr, hstop⟩, hst', hend⟩ := (step_effect h).end_cases hs ht
  · exact ⟨hr, .inl ⟨hstop, hst', he'.trans he⟩⟩
  · have hst'' := hst'.trans hst
    obtain he' | ⟨he', hi⟩ := hend
    · exact ⟨hr, .inr (.inl ⟨hstop, hst'', he'⟩)⟩
    · exact ⟨hr, .inr (.inr ⟨hstop, hst'', he'.trans he, hi⟩)⟩

end Sys2Proof.Machine
end

section
/-! PROOFS. The system and terminal instructions `halt`, `noop`, `out` and `in` (R81 to R84): what each answers, its
frame, and how a sequence of `in` reads the codes that are available (R80). -/

namespace Sys2Proof.Machine

open Sys2Proof.Claims

/-! ### Where an instruction executes -/

/-- The instruction executes behind its opcode word and its operand words (R73). -/
theorem entersAfter_arity (i : Instr) : EntersAfter i (1 + i.arity) := fun _ => ⟨rfl, rfl⟩

theorem destOf_of_noRegister {o : Operand} (h : NoRegister o) : destOf o = none := by
  cases o with
  | reg r => exact absurd rfl (h r)
  | lit | invalid => rfl

/-! ### Frames -/

theorem onlyChanges_refl (s : State) : OnlyChanges [] s s := by
  intro p _
  cases p <;> rfl

theorem onlyChanges_trans {ps qs : List Part} {s t u : State} (h : OnlyChanges ps s t) (h' : OnlyChanges qs t u)
    (hsub : ps ⊆ qs) : OnlyChanges qs s u := by
  intro p hp
  have hst := h p fun hps => hp (hsub hps)
  have htu := h' p hp
  cases p <;> exact Eq.trans htu hst

theorem onlyChanges_haltRun (s : State) : OnlyChanges [.haltedFlag, .runState] s s.haltRun := by
  intro p hp
  cases p with
  | haltedFlag | runState => simp at hp
  | _ => rfl

theorem onlyChanges_termWrite (s : State) (c : Word) : OnlyChanges [.termOut] s (s.termWrite c) := by
  intro p hp
  cases p with
  | termOut => simp at hp
  | _ => rfl

theorem onlyChanges_beginWait (s : State) (d : RegIdx) : OnlyChanges [.runState, .inDest] s (s.beginWait d) := by
  intro p hp
  cases p with
  | runState | inDest => simp at hp
  | _ => rfl

/-- Completing an `in` writes the latched register, takes a code and ends the wait. -/
theorem onlyChanges_takeInput (s : State) (c : Word) (rest : List Word) :
    OnlyChanges [.reg s.inDest, .termIn, .runState, .inDest] s (s.takeInput c rest) := by
  intro p hp
  cases p with
  | termIn | runState | inDest => simp at hp
  | reg r => exact State.reg_setReg_other s (by simpa using hp) c
  | _ => rfl

/-! ### `in` -/

section
variable {s : State} {c : Word} {rest : List Word}

/-- An `in` takes the oldest available code within its step (R83). -/
theorem exec_input_of_code (d : RegIdx) (ht : s.termIn = c :: rest) :
    exec (.input (.reg d)) s = .next ((s.beginWait d).takeInput c rest) :=
  congrArg _ (State.tryInput_of_cons (s := s.beginWait d) ht)

/-- With no code available it waits (R83). -/
theorem exec_input_of_noCode (d : RegIdx) (ht : s.termIn = []) :
    exec (.input (.reg d)) s = .next (s.beginWait d) :=
  congrArg _ (State.tryInput_of_nil (s := s.beginWait d) ht)

/-- The first of several `in` reads the oldest code, and the others go on from there. -/
theorem readCodes_cons_of_code (d : RegIdx) (ds : List RegIdx) (ht : s.termIn = c :: rest) :
    readCodes (d :: ds) s =
      (readCodes ds ((s.beginWait d).takeInput c rest)).map (fun r => (c :: r.1, r.2)) := by
  have hreg : ((s.beginWait d).takeInput c rest).reg d = c := (s.beginWait d).takeInput_reg_inDest c rest
  simp [readCodes, exec_input_of_code d ht, hreg]

end

/-- As many `in` as there are codes available read them all, in order, and leave none. -/
theorem readCodes_of_length_eq {ds : List RegIdx} {s : State} (h : ds.length = s.termIn.length) :
    ∃ u, readCodes ds s = some (s.termIn, u) ∧ u.termIn = [] := by
  induction ds generalizing s with
  | nil =>
    have ht : s.termIn = [] := List.length_eq_zero_iff.1 h.symm
    exact ⟨s, by rw [ht]; rfl, ht⟩
  | cons d ds ih =>
    obtain ⟨c, rest, ht⟩ := List.exists_cons_of_length_eq_add_one h.symm
    have hlen : ds.length = rest.length := by simpa [ht] using h
    obtain ⟨u, hu, hnone⟩ := ih (s := (s.beginWait d).takeInput c rest) hlen
    exact ⟨u, by rw [readCodes_cons_of_code d ds ht, hu, ht]; rfl, hnone⟩

/-! ### The obligations -/

/-- Settles O7: the line and its terminator join the queue, which as many `in` empty; a waiting `in` takes its head. -/
theorem lineIsReadThenItsTerminator : Obligations.LineIsReadThenItsTerminator := by
  refine fun s codes => ⟨fun ds hds => ?_, fun hr ht => ?_⟩
  · have hqueue : (hostAct (.inputLine codes) s).termIn = s.termIn ++ codes ++ [10#16] :=
      (List.append_assoc ..).symm
    obtain ⟨u, hu, hnone⟩ := readCodes_of_length_eq (ds := ds) (s := hostAct (.inputLine codes) s)
      (by simp [hqueue, hds, Nat.add_assoc])
    exact ⟨u, by rw [hu, hqueue], fun d => ⟨_, exec_input_of_noCode d hnone, rfl⟩⟩
  · obtain ⟨c, rest, hline⟩ := List.exists_cons_of_ne_nil (List.concat_ne_nil 10#16 codes)
    have hqueue : (hostAct (.inputLine codes) s).termIn = c :: rest := by
      rw [← hline]
      exact congrArg (· ++ _) ht
    refine ⟨_, step_of_code hr hqueue, rfl, ?_⟩
    rw [hline]
    exact congrArg (· :: rest) (State.takeInput_reg_inDest ..)

/-- Settles O39. -/
theorem haltEndsTheRun : Obligations.HaltEndsTheRun :=
  ⟨rfl, entersAfter_arity .halt, fun s => ⟨s.haltRun, rfl, rfl, rfl, onlyChanges_haltRun s⟩⟩

/-- Settles O40: the step changes what fetching the one word changes. -/
theorem noopHasNoEffect : Obligations.NoopHasNoEffect :=
  ⟨rfl, entersAfter_arity .noop, fun _ => rfl, fun s hb hi =>
    ⟨(s.fetched .noop).endStep, step_of_nextIs hb hi, rfl, onlyChanges_endStep (onlyChanges_refl (s.fetched .noop))⟩⟩

/-- Settles O41. -/
theorem outPassesTheCodeUnchanged : Obligations.OutPassesTheCodeUnchanged :=
  fun s val => ⟨rfl, entersAfter_arity (.out val),
    fun c hc => ⟨s.termWrite c, withValue_of_some hc fun v => .next (s.termWrite v), rfl, onlyChanges_termWrite s c⟩,
    fun hv => withValue_of_none hv fun v => .next (s.termWrite v)⟩

/-- Settles O42: an `in` with a code available passes through the state of the wait, so its frame is that of beginning
to wait and then completing. -/
theorem inTakesACodeOrWaits : Obligations.InTakesACodeOrWaits := by
  refine fun s dst => ⟨rfl, entersAfter_arity (.input dst), ?_, ?_, fun c rest hr ht => ?_, step_of_waiting,
    fun hd => withDest_of_none (destOf_of_noRegister hd) fun d => .next (s.beginWait d).tryInput⟩
  · rintro d c rest rfl ht
    refine ⟨_, exec_input_of_code d ht, State.takeInput_reg_inDest .., rfl, rfl, rfl, ?_⟩
    exact onlyChanges_trans (onlyChanges_beginWait s d) (onlyChanges_takeInput (s.beginWait d) c rest) (by simp)
  · rintro d rfl ht
    exact ⟨_, exec_input_of_noCode d ht, rfl, rfl, onlyChanges_beginWait s d⟩
  · exact ⟨_, step_of_code hr ht, s.takeInput_reg_inDest c rest, rfl, rfl, onlyChanges_takeInput s c rest⟩

end Sys2Proof.Machine
end

section
/-! PROOFS. The register and stack instructions `set`, `push` and `pop` (R85 to R87): what each answers, by whether its
operands resolve and whether the stack has room or a word to pop (R20 to R22), and its frame. -/

namespace Sys2Proof.Machine

open Sys2Proof.Claims

/-! ### Room and the top word -/

section
variable {s : State}

/-- Below its capacity, or without one, the stack takes one more word (R21). -/
theorem withRoom_of_room (h : s.cfg.stackCapacity ≠ some s.stack.length) (k : Answer) : withRoom s k = k :=
  if_neg fun hf => h (s.stackFull_iff.1 hf)

/-- A push at the capacity ends the step (R21). -/
theorem withRoom_of_full (h : s.cfg.stackCapacity = some s.stack.length) (k : Answer) :
    withRoom s k = .next (s.raise .stackOverflow) :=
  if_pos (s.stackFull_iff.2 h)

theorem withPop_of_cons {v : Word} {rest : List Word} (h : s.stack = v :: rest) (k : Word → State → Answer) :
    withPop s k = k v (s.setStack rest) := by
  rw [withPop, h]

/-- A pop of an empty stack ends the step (R22). -/
theorem withPop_of_nil (h : s.stack = []) (k : Word → State → Answer) :
    withPop s k = .next (s.raise .stackUnderflow) := by
  rw [withPop, h]; rfl

end

/-! ### Writing a function of one value -/

section
variable {s : State} {a : Operand}

theorem writeUnary_of_value {v : Word} (f : Word → Word) (d : RegIdx) (ha : s.value a = some v) :
    writeUnary f (.reg d) a s = .next (s.setReg d (f v)) := by
  rw [writeUnary, withDest_reg, withValue_of_some ha]

/-- The destination is resolved first, so its error is reported whatever the value operand is. -/
theorem writeUnary_of_noRegister {dst : Operand} (f : Word → Word) (a : Operand) (hd : NoRegister dst) :
    writeUnary f dst a s = .next (s.raise .invalidRegisterTarget) :=
  withDest_of_none (destOf_of_noRegister hd) _

theorem writeUnary_of_noValue (f : Word → Word) (d : RegIdx) (ha : s.value a = none) :
    writeUnary f (.reg d) a s = .next (s.raise .invalidOperand) := by
  rw [writeUnary, withDest_reg, withValue_of_none ha]

end

/-! ### Frames -/

theorem onlyChanges_mono {ps qs : List Part} {s t : State} (h : OnlyChanges ps s t) (hsub : ps ⊆ qs) :
    OnlyChanges qs s t :=
  fun p hp => h p fun hps => hp (hsub hps)

theorem onlyChanges_setStack (s : State) (st : List Word) : OnlyChanges [.stack] s (s.setStack st) := by
  intro p hp
  cases p with
  | stack => simp at hp
  | _ => rfl

/-- A push is one way of setting the stack. -/
theorem onlyChanges_stackPush (s : State) (v : Word) : OnlyChanges [.stack] s (s.stackPush v) :=
  onlyChanges_setStack s (v :: s.stack)

/-- A pop into a register sets the stack and then the register. -/
theorem onlyChanges_setStack_setReg (s : State) (st : List Word) (d : RegIdx) (v : Word) :
    OnlyChanges [.reg d, .stack] s ((s.setStack st).setReg d v) :=
  onlyChanges_trans (onlyChanges_setStack s st) (onlyChanges_mono (onlyChanges_setReg (s.setStack st) d v) (by simp))
    (by simp)

/-! ### `push` and `pop` -/

section
variable {s : State} {v : Word}

/-- A push with a value and room for it goes through (R86). -/
theorem exec_push_of_room {val : Operand} (hv : s.value val = some v)
    (hroom : s.cfg.stackCapacity ≠ some s.stack.length) : exec (.push val) s = .next (s.stackPush v) :=
  (withValue_of_some hv _).trans (withRoom_of_room hroom _)

/-- A pop of a stack that holds a word moves it to the destination (R87). -/
theorem exec_pop_of_cons {rest : List Word} (d : RegIdx) (hs : s.stack = v :: rest) :
    exec (.pop (.reg d)) s = .next ((s.setStack rest).setReg d v) :=
  withPop_of_cons hs fun v t => .next (t.setReg d v)

end

/-! ### The obligations -/

/-- Settles O43: `set` writes the identity of its value. -/
theorem setCopiesTheWholeValue : Obligations.SetCopiesTheWholeValue := by
  refine fun s dst val => ⟨rfl, entersAfter_arity (.set dst val), ?_, writeUnary_of_noRegister _ val, ?_⟩
  · rintro d v rfl hv
    exact ⟨_, writeUnary_of_value _ d hv, s.reg_setReg_same d v, onlyChanges_setReg s d v⟩
  · rintro d rfl hv
    exact writeUnary_of_noValue _ d hv

/-- Settles O44: the value is resolved before the depth is compared with the capacity. -/
theorem pushAppendsItsValue : Obligations.PushAppendsItsValue := by
  refine fun s val => ⟨rfl, entersAfter_arity (.push val), fun v hv hroom => ?_, fun hv => withValue_of_none hv _,
    fun v hv hfull => ?_⟩
  · exact ⟨_, exec_push_of_room hv hroom, rfl, onlyChanges_stackPush s v⟩
  · exact (withValue_of_some hv _).trans (withRoom_of_full hfull _)

/-- Settles O45: a push leaves its value on top of the stack that was, and a pop takes them apart again. -/
theorem popTakesTheTop : Obligations.PopTakesTheTop := by
  refine fun s dst => ⟨rfl, entersAfter_arity (.pop dst), ?_,
    fun hd => withDest_of_none (destOf_of_noRegister hd) _, ?_, ?_⟩
  · rintro d v rest rfl hs
    exact ⟨_, exec_pop_of_cons d hs, State.reg_setReg_same _ d v, rfl, onlyChanges_setStack_setReg s rest d v⟩
  · rintro d rfl hs
    exact withPop_of_nil hs fun v t => .next (t.setReg d v)
  · rintro d val v t rfl hv hroom hpush
    obtain rfl : s.stackPush v = t := by simpa [exec_push_of_room hv hroom] using hpush
    exact ⟨_, exec_pop_of_cons d rfl, State.reg_setReg_same _ d v, rfl⟩

end Sys2Proof.Machine
end

section
/-! PROOFS. The instructions of comparison, arithmetic and logic (R88 to R97): the rule that the six plain binary ones
share, `mod` with its zero divisor, `not`, and which results can reach 32768. -/

namespace Sys2Proof.Machine

open Sys2Proof.Claims

/-! ### Results of the operations -/

/-- The remainder is below 2^16 already, so nothing is lost in a word (R94). -/
theorem aluMod_toNat (va vb : Word) : (aluMod va vb).toNat = va.toNat % vb.toNat := by
  rw [aluMod, BitVec.toNat_ofNat]
  exact Nat.mod_eq_of_lt ((Nat.mod_le _ _).trans_lt va.isLt)

/-- The mask keeps what is modulo 32768, and there complementing is subtracting from 32767 (R97). -/
theorem aluNot_toNat (va : Word) : (aluNot va).toNat = 32767 - va.toNat % 32768 := by
  have hmask : (aluNot va).toNat = (65535 - va.toNat) % 32768 := by
    rw [aluNot, BitVec.toNat_and, BitVec.toNat_not]
    exact Nat.and_two_pow_sub_one_eq_mod _ 15
  have := va.isLt
  omega

/-! ### Resolving two values -/

section
variable {s : State} {a b : Operand}

/-- Of two value operands, one that has no value ends the step, whatever would follow (R60). -/
theorem withValue_withValue_of_none (h : s.value a = none ∨ s.value b = none) (k : Word → Word → Answer) :
    withValue a s (fun va => withValue b s (k va)) = .next (s.raise .invalidOperand) := by
  cases ha : s.value a with
  | none => exact withValue_of_none ha _
  | some va => exact (withValue_of_some ha _).trans (withValue_of_none (h.resolve_left (by simp [ha])) _)

/-- The destination is resolved first, so its error is reported whatever the value operands are. -/
theorem writeBinary_of_noRegister {dst : Operand} (f : Word → Word → Word) (a b : Operand) (hd : NoRegister dst) :
    writeBinary f dst a b s = .next (s.raise .invalidRegisterTarget) :=
  withDest_of_none (destOf_of_noRegister hd) _

theorem writeBinary_of_noValue (f : Word → Word → Word) (d : RegIdx) (h : s.value a = none ∨ s.value b = none) :
    writeBinary f (.reg d) a b s = .next (s.raise .invalidOperand) :=
  withValue_withValue_of_none h fun va vb => .next (s.setReg d (f va vb))

/-- With a divisor that is not 0, `mod` is one more binary operation (R94). -/
theorem exec_mod_of_ne_zero (dst a : Operand) (hb : s.value b ≠ some 0#16) :
    exec (.mod dst a b) s = writeBinary aluMod dst a b s := by
  have hdiv : ∀ d va, (withValue b s fun vb =>
      if vb = 0#16 then fatal .divisionByZero s else .next (s.setReg d (aluMod va vb))) =
        withValue b s fun vb => .next (s.setReg d (aluMod va vb)) := by
    intro d va
    cases hv : s.value b with
    | none => rw [withValue_of_none hv, withValue_of_none hv]
    | some vb => rw [withValue_of_some hv, withValue_of_some hv, if_neg fun hz => hb (by rw [hv, hz])]
  simp only [exec, execMod, writeBinary, hdiv]

/-- A zero divisor is seen only when all operands are resolved (R94). -/
theorem exec_mod_of_zero {va : Word} (d : RegIdx) (ha : s.value a = some va) (hb : s.value b = some 0#16) :
    exec (.mod (.reg d) a b) s = .next (s.raise .divisionByZero) :=
  (withValue_of_some ha _).trans (withValue_of_some hb _)

end

/-! ### The rule of the plain binary instructions -/

/-- An instruction executes behind all the words of its encoding (R73). -/
theorem entersAfter_of_encode_length {i : Instr} {n : Nat} (h : (encode i).length = n) : EntersAfter i n := by
  have hn : n = 1 + i.arity := by rw [← h, encode, List.length_cons, List.length_map, Instr.arity, Nat.add_comm]
  rw [hn]
  exact entersAfter_arity i

/-- An instruction of three operands that only writes `f` follows the rule of the function `g` that `f` computes on
natural numbers. -/
theorem binaryRule_of_writeBinary {mk : Operand → Operand → Operand → Instr} {code : Word} {f : Word → Word → Word}
    {g : Nat → Nat → Nat}
    (henc : ∀ dst a b, encode (mk dst a b) = [code, encodeOperand dst, encodeOperand a, encodeOperand b])
    (hexec : ∀ dst a b s, exec (mk dst a b) s = writeBinary f dst a b s)
    (hf : ∀ va vb, (f va vb).toNat = g va.toNat vb.toNat) : BinaryRule mk code g := by
  intro s dst a b
  refine ⟨henc dst a b, entersAfter_of_encode_length (congrArg List.length (henc dst a b)), ?_, fun hd => ?_, ?_⟩
  · rintro d va vb rfl ha hb
    refine ⟨s.setReg d (f va vb), (hexec ..).trans (writeBinary_of_values ha hb), ?_, onlyChanges_setReg s d _⟩
    rw [State.reg_setReg_same, hf]
  · exact (hexec ..).trans (writeBinary_of_noRegister f a b hd)
  · rintro d rfl hv
    exact (hexec ..).trans (writeBinary_of_noValue f d hv)

/-- Settles O46: words are equal exactly when their numbers are. -/
theorem comparisonsWriteZeroOrOne : Obligations.ComparisonsWriteZeroOrOne := by
  refine ⟨binaryRule_of_writeBinary (f := aluEq) (fun _ _ _ => rfl) (fun _ _ _ _ => rfl) fun va vb => ?_,
    binaryRule_of_writeBinary (fun _ _ _ => rfl) (fun _ _ _ _ => rfl) aluGt_toNat⟩
  simp only [aluEq_toNat, BitVec.toNat_inj]

/-- Settles O47. -/
theorem addAndMultWrapModulo32768 : Obligations.AddAndMultWrapModulo32768 :=
  ⟨binaryRule_of_writeBinary (fun _ _ _ => rfl) (fun _ _ _ _ => rfl) aluAdd_toNat,
    binaryRule_of_writeBinary (fun _ _ _ => rfl) (fun _ _ _ _ => rfl) aluMult_toNat⟩

/-- Settles O48. -/
theorem andOrAreUnmasked : Obligations.AndOrAreUnmasked :=
  ⟨binaryRule_of_writeBinary (fun _ _ _ => rfl) (fun _ _ _ _ => rfl) aluAnd_toNat,
    binaryRule_of_writeBinary (fun _ _ _ => rfl) (fun _ _ _ _ => rfl) aluOr_toNat⟩

/-! ### `mod` and `not` -/

/-- Settles O49: the divisor is compared with 0 behind the errors that `mod` shares with the binary instructions. -/
theorem modWritesTheRemainder : Obligations.ModWritesTheRemainder := by
  refine fun s dst a b => ⟨rfl, entersAfter_arity (.mod dst a b), ?_,
    fun hd => withDest_of_none (destOf_of_noRegister hd) _, ?_, ?_⟩
  · rintro d va vb rfl ha hb hz
    have hb' : s.value b ≠ some 0#16 := by
      rw [hb]
      rintro ⟨⟩
      exact hz rfl
    refine ⟨s.setReg d (aluMod va vb), (exec_mod_of_ne_zero _ a hb').trans (writeBinary_of_values ha hb), ?_,
      onlyChanges_setReg s d _⟩
    rw [State.reg_setReg_same, aluMod_toNat]
  · rintro d rfl hv
    exact withValue_withValue_of_none hv _
  · rintro d va vb rfl ha hb hz
    obtain rfl : vb = 0#16 := BitVec.eq_of_toNat_eq hz
    exact exec_mod_of_zero d ha hb

/-- Settles O50: the second `not` undoes the subtraction from 32767. -/
theorem notIsMaskedTo15Bits : Obligations.NotIsMaskedTo15Bits := by
  refine fun s dst a => ⟨rfl, entersAfter_arity (.not dst a), ?_, writeUnary_of_noRegister aluNot a, ?_, ?_⟩
  · rintro d va rfl ha
    refine ⟨s.setReg d (aluNot va), writeUnary_of_value aluNot d ha, ?_, onlyChanges_setReg s d _⟩
    rw [State.reg_setReg_same, aluNot_toNat]
  · rintro d rfl ha
    exact writeUnary_of_noValue aluNot d ha
  · rintro d e va t rfl ha ht
    obtain rfl : s.setReg d (aluNot va) = t := Host.Outcome.next.inj ((writeUnary_of_value aluNot d ha).symm.trans ht)
    have hd : (s.setReg d (aluNot va)).value (.reg d) = some (aluNot va) := congrArg some (s.reg_setReg_same d _)
    refine ⟨_, writeUnary_of_value aluNot e hd, ?_⟩
    rw [State.reg_setReg_same, aluNot_toNat, aluNot_toNat]
    omega

/-! ### Results of 32768 or more -/

/-- One of the operands has a value of 32768 or more. -/
def HasLargeValue (s : State) (os : List Operand) : Prop := ∃ o ∈ os, ∃ v, s.value o = some v ∧ 32768 ≤ v.toNat

/-- A result of 32768 or more of the operation comes from an operand that is as large (R89). -/
def LargeOnlyFromLarge (f : Word → Word → Word) : Prop :=
  ∀ va vb : Word, 32768 ≤ (f va vb).toNat → 32768 ≤ va.toNat ∨ 32768 ≤ vb.toNat

theorem aluMod_largeOnlyFromLarge : LargeOnlyFromLarge aluMod := fun va vb h =>
  .inl (h.trans (aluMod_toNat va vb ▸ Nat.mod_le _ _))

theorem aluAnd_largeOnlyFromLarge : LargeOnlyFromLarge aluAnd := fun va vb h =>
  .inl (h.trans (aluAnd_toNat va vb ▸ Nat.and_le_left))

/-- Bit 15 of a bitwise or is set only if it is in one of the two. -/
theorem aluOr_largeOnlyFromLarge : LargeOnlyFromLarge aluOr := by
  intro va vb h
  rw [aluOr_toNat] at h
  by_contra! hlt
  exact absurd (Nat.or_lt_two_pow (n := 15) hlt.1 hlt.2) (by omega)

section
variable {f : Word → Word → Word} {d : RegIdx} {a b : Operand} {s t : State}

/-- What a binary operation with resolvable operands leaves in its destination. -/
theorem reg_of_writeBinary (hv : ∀ o ∈ [a, b], s.value o ≠ none) (h : writeBinary f (.reg d) a b s = .next t) :
    ∃ va vb, s.value a = some va ∧ s.value b = some vb ∧ t.reg d = f va vb := by
  obtain ⟨va, ha⟩ := Option.ne_none_iff_exists'.1 (hv a (by simp))
  obtain ⟨vb, hb⟩ := Option.ne_none_iff_exists'.1 (hv b (by simp))
  obtain rfl : s.setReg d (f va vb) = t := Host.Outcome.next.inj ((writeBinary_of_values ha hb).symm.trans h)
  exact ⟨va, vb, ha, hb, s.reg_setReg_same d _⟩

theorem reg_lt_of_writeBinary (hf : ∀ va vb, (f va vb).toNat < 32768) (hv : ∀ o ∈ [a, b], s.value o ≠ none)
    (h : writeBinary f (.reg d) a b s = .next t) : (t.reg d).toNat < 32768 := by
  obtain ⟨va, vb, -, -, hr⟩ := reg_of_writeBinary hv h
  exact hr ▸ hf va vb

theorem reg_lt_or_hasLargeValue (hf : LargeOnlyFromLarge f) (hv : ∀ o ∈ [a, b], s.value o ≠ none)
    (h : writeBinary f (.reg d) a b s = .next t) : (t.reg d).toNat < 32768 ∨ HasLargeValue s [a, b] := by
  obtain ⟨va, vb, ha, hb, hr⟩ := reg_of_writeBinary hv h
  refine (Nat.lt_or_ge _ _).imp_right fun hlarge => ?_
  obtain hva | hvb := hf va vb (hr ▸ hlarge)
  · exact ⟨a, by simp, va, ha, hva⟩
  · exact ⟨b, by simp, vb, hb, hvb⟩

end

/-- The result of an ALU instruction is below 32768, or it is one of `mod`, `and` and `or` with a larger operand
(R88, R89). -/
theorem alu_result_lt_or_large {i : Instr} {s t : State} {d : RegIdx} (hi : i.opcode ∈ [4, 5, 9, 10, 11, 12, 13, 14])
    (hd : i.operands.head? = some (.reg d)) (hv : ∀ o ∈ i.operands.tail, s.value o ≠ none)
    (h : exec i s = .next t) (hz : i.opcode = 11 → ∀ o ∈ i.operands.drop 2, s.value o ≠ some 0#16) :
    (t.reg d).toNat < 32768 ∨ (i.opcode ∈ [11, 12, 13] ∧ HasLargeValue s i.operands.tail) := by
  cases i with
  | eq dst a b =>
    cases hd
    refine .inl (reg_lt_of_writeBinary (fun va vb => ?_) hv h)
    rw [aluEq_toNat]
    split <;> decide
  | gt dst a b =>
    cases hd
    refine .inl (reg_lt_of_writeBinary (fun va vb => ?_) hv h)
    rw [aluGt_toNat]
    split <;> decide
  | add dst a b =>
    cases hd
    exact .inl (reg_lt_of_writeBinary (fun va vb => aluAdd_toNat va vb ▸ Nat.mod_lt _ (by decide)) hv h)
  | mult dst a b =>
    cases hd
    exact .inl (reg_lt_of_writeBinary (fun va vb => aluMult_toNat va vb ▸ Nat.mod_lt _ (by decide)) hv h)
  | mod dst a b =>
    cases hd
    rw [exec_mod_of_ne_zero _ a (hz rfl b (by simp [Instr.operands]))] at h
    exact (reg_lt_or_hasLargeValue aluMod_largeOnlyFromLarge hv h).imp_right (.intro (by simp [Instr.opcode]))
  | and dst a b =>
    cases hd
    exact (reg_lt_or_hasLargeValue aluAnd_largeOnlyFromLarge hv h).imp_right (.intro (by simp [Instr.opcode]))
  | or dst a b =>
    cases hd
    exact (reg_lt_or_hasLargeValue aluOr_largeOnlyFromLarge hv h).imp_right (.intro (by simp [Instr.opcode]))
  | not dst a =>
    cases hd
    obtain ⟨va, ha⟩ := Option.ne_none_iff_exists'.1 (hv a (by simp [Instr.operands]))
    obtain rfl := Host.Outcome.next.inj ((writeUnary_of_value aluNot d ha).symm.trans h)
    rw [State.reg_setReg_same, aluNot_toNat]
    exact .inl (by omega)
  | halt | set | push | pop | jmp | jt | jf | rmem | wmem | call | ret | out | input | noop =>
    simp [Instr.opcode] at hi

/-- Settles O51: each half excludes one side of the dichotomy. -/
theorem aluStaysBelow32768 : Obligations.AluStaysBelow32768 := by
  intro i s t d hi hd hv h hz
  obtain hlt | ⟨hop, hlarge⟩ := alu_result_lt_or_large hi hd hv h hz
  · exact ⟨fun _ => hlt, fun hge => absurd hge (by omega)⟩
  · refine ⟨fun hsmall => ?_, fun _ => ⟨hop, hlarge⟩⟩
    obtain ⟨o, ho, v, hov, hge⟩ := hlarge
    exact absurd (hsmall o ho v hov) (by omega)

end Sys2Proof.Machine
end

section
/-! PROOFS. The instructions of control transfer (R98 to R105): what `jmp`, `jt`, `jf`, `call` and `ret` answer, their
frames, and the two whole steps of a `call` whose target holds a `ret`. -/

namespace Sys2Proof.Machine

open Sys2Proof.Claims

/-! ### Frames -/

theorem onlyChanges_setPc (s : State) (a : Word) : OnlyChanges [.pc] s (s.setPc a) := by
  intro p hp
  cases p with
  | pc => simp at hp
  | _ => rfl

/-- A `call` and a `ret` set the stack and then the pc. -/
theorem onlyChanges_setStack_setPc (s : State) (st : List Word) (a : Word) :
    OnlyChanges [.stack, .pc] s ((s.setStack st).setPc a) :=
  onlyChanges_trans (onlyChanges_setStack s st) (onlyChanges_mono (onlyChanges_setPc (s.setStack st) a) (by simp))
    (by simp)

/-- A piece that may change and is the same at the end leaves the frame. -/
theorem onlyChanges_of_samePart {q : Part} {ps : List Part} {s t : State} (h : OnlyChanges (q :: ps) s t)
    (hq : SamePart s t q) : OnlyChanges ps s t := by
  intro p hp
  by_cases hpq : p = q
  · rwa [hpq]
  · exact h p (by simp [hpq, hp])

/-! ### Jumps -/

/-- A conditional jump whose operands resolve goes to its target or on, by the condition (R102, R103). -/
theorem jumpWhen_of_values {taken : Word → Bool} {cond target : Operand} {s : State} {c a : Word}
    (hc : s.value cond = some c) (ha : s.value target = some a) :
    jumpWhen taken cond target s = .next (if taken c then s.setPc a else s) := by
  rw [jumpWhen, withValue_of_some hc, withValue_of_some ha]

/-- An instruction that jumps when `taken` holds follows the branch rule of the predicate `g` that `taken` computes on
natural numbers. -/
theorem branchRule_of_jumpWhen {mk : Operand → Operand → Instr} {code : Word} {taken : Word → Bool} {g : Nat → Bool}
    (henc : ∀ cond target, encode (mk cond target) = [code, encodeOperand cond, encodeOperand target])
    (hexec : ∀ cond target s, exec (mk cond target) s = jumpWhen taken cond target s)
    (hg : ∀ c, taken c = g c.toNat) : BranchRule mk code g := by
  intro s cond target
  refine ⟨henc cond target, entersAfter_of_encode_length (congrArg List.length (henc cond target)),
    fun c a hc ha => ⟨_, (hexec ..).trans (jumpWhen_of_values hc ha), ?_⟩,
    fun hv => (hexec ..).trans (withValue_withValue_of_none hv _)⟩
  rw [← hg]
  cases taken c with
  | true => exact ⟨rfl, onlyChanges_setPc s a⟩
  | false => exact ⟨rfl, onlyChanges_mono (onlyChanges_refl s) (by simp)⟩

/-- Settles O53. -/
theorem jmpWritesThePc : Obligations.JmpWritesThePc :=
  fun s target => ⟨rfl, entersAfter_arity (.jmp target),
    fun a ha => ⟨s.setPc a, withValue_of_some ha fun v => .next (s.setPc v), rfl, onlyChanges_setPc s a⟩,
    fun ha => withValue_of_none ha fun v => .next (s.setPc v)⟩

/-- Settles O54: the two conditions are one test of a word against 0, which its number passes exactly when it does. -/
theorem conditionalJumps : Obligations.ConditionalJumps := by
  have hzero : ∀ c : Word, c = 0#16 ↔ c.toNat = 0 := fun c => BitVec.toNat_inj.symm
  exact ⟨branchRule_of_jumpWhen (fun _ _ => rfl) (fun _ _ _ => rfl) fun c => decide_eq_decide.2 (hzero c).not,
    branchRule_of_jumpWhen (fun _ _ => rfl) (fun _ _ _ => rfl) fun c => decide_eq_decide.2 (hzero c)⟩

/-! ### `call` and `ret` -/

section
variable {s : State} {target : Operand} {a : Word} {rest : List Word}

/-- A `call` with a target and room for the return address goes through (R104). -/
theorem exec_call_of_room (ha : s.value target = some a) (hroom : s.cfg.stackCapacity ≠ some s.stack.length) :
    exec (.call target) s = .next ((s.stackPush s.pc).setPc a) :=
  (withValue_of_some ha _).trans (withRoom_of_room hroom _)

/-- A `ret` of a stack that holds a word goes there (R105). -/
theorem exec_ret_of_cons (hs : s.stack = a :: rest) : exec .ret s = .next ((s.setStack rest).setPc a) :=
  withPop_of_cons hs fun v t => .next (t.setPc v)

end

/-- Settles O55: the target is resolved before the depth is compared with the capacity. -/
theorem callPushesTheReturnAddress : Obligations.CallPushesTheReturnAddress := by
  refine fun s target => ⟨rfl, entersAfter_arity (.call target), fun a ha hroom => ?_, fun ha => withValue_of_none ha _,
    fun a ha hfull => ?_⟩
  · exact ⟨_, exec_call_of_room ha hroom, rfl, rfl, onlyChanges_setStack_setPc s (s.pc :: s.stack) a⟩
  · exact (withValue_of_some ha _).trans (withRoom_of_full hfull _)

/-- Settles O56. -/
theorem retPopsThePc : Obligations.RetPopsThePc :=
  ⟨rfl, entersAfter_arity .ret, fun s =>
    ⟨fun v rest hs => ⟨_, exec_ret_of_cons hs, rfl, rfl, onlyChanges_setStack_setPc s rest v⟩,
      fun hs => withPop_of_nil hs fun v t => .next (t.setPc v)⟩⟩

/-! ### A `call` and a `ret` in two steps -/

/-- The word 18 decodes to `ret` wherever it stands in memory, since `ret` has no operand words (R56). -/
theorem nextIs_ret {s : State} (hp : s.pc.toNat < 32768) (hw : Memory.read s.mem s.pc.toNat = 18#16) :
    NextIs .ret s := by
  have har : opcodeArity (Memory.read s.mem s.pc.toNat).toNat = some 0 := by rw [hw]; rfl
  obtain ⟨i, rest, hi, hdec, -⟩ := decodeAt_of_fits har hp
  have hret := hdec (fun _ => 0#16) (by simp)
  rw [hw] at hret
  cases hret
  exact ⟨rest, hi⟩

section
variable {s : State} {target : Operand} {a : Word} {rest : List Word}

/-- A whole step of a `call` with room pushes the address after its two words. -/
theorem step_call_of_room (hb : AtBoundary s) (hi : NextIs (.call target) s) (ha : s.value target = some a)
    (hroom : s.cfg.stackCapacity ≠ some s.stack.length) :
    ∃ t, step s = .next t ∧ t.pc = a ∧ t.stack = (s.pc + 2#16) :: s.stack ∧
      OnlyChanges [.stack, .pc, .insnPc, .latch] s t := by
  have hexec := exec_call_of_room ((s.value_fetched (.call target) target).trans ha) hroom
  refine ⟨_, by rw [step_of_nextIs hb hi, hexec, finish], rfl, rfl, ?_⟩
  exact onlyChanges_mono (onlyChanges_endStep (onlyChanges_setStack_setPc (s.fetched (.call target)) _ a)) (by simp)

/-- A whole step of a `ret` goes to the word on top of the stack. -/
theorem step_ret_of_cons (hb : AtBoundary s) (hi : NextIs .ret s) (hs : s.stack = a :: rest) :
    ∃ t, step s = .next t ∧ t.pc = a ∧ t.stack = rest ∧ OnlyChanges [.stack, .pc, .insnPc, .latch] s t := by
  have hexec := exec_ret_of_cons ((s.fetched_stack .ret).trans hs)
  refine ⟨_, by rw [step_of_nextIs hb hi, hexec, finish], rfl, rfl, ?_⟩
  exact onlyChanges_mono (onlyChanges_endStep (onlyChanges_setStack_setPc (s.fetched .ret) rest a)) (by simp)

end

/-- Settles O57: the `call` changes nothing that keeps the CORE from running the `ret`, and the `ret` puts back the one
piece, the stack, that is not in the frame. -/
theorem callThenRetComesBack : Obligations.CallThenRetComesBack := by
  intro s target a hb hi ha hroom hlt hw
  obtain ⟨t, hcall, htpc, htstack, htframe⟩ := step_call_of_room hb hi ha hroom
  have hbt : AtBoundary t :=
    ⟨(htframe .runState (by simp)).trans hb.1, (htframe .stopRequest (by simp)).trans hb.2⟩
  have hwt : Memory.read t.mem a.toNat = 18#16 := (htframe (.cell a.toNat) (by simp)).trans hw
  obtain ⟨u, hret, hupc, hustack, huframe⟩ := step_ret_of_cons hbt (nextIs_ret (htpc ▸ hlt) (htpc ▸ hwt)) htstack
  refine ⟨t, u, hcall, htpc, htstack, hret, ?_, ?_⟩
  · rw [hupc]
    exact (fetched_pc_toNat hi).1
  · exact onlyChanges_of_samePart (onlyChanges_trans htframe huframe (List.Subset.refl _)) hustack

end Sys2Proof.Machine
end

section
/-! PROOFS. The memory instructions `rmem` and `wmem` (R106 to R108): what each answers, by whether its operands resolve
and its effective address names a cell, and its frame. -/

namespace Sys2Proof.Machine

open Sys2Proof.Claims

/-! ### The effective address -/

section
variable {s : State} {ea : Word}

/-- An address below 32768 names a cell (R106). -/
theorem withAddress_of_lt (h : ea.toNat < 32768) (k : Nat → Answer) : withAddress ea s k = k ea.toNat :=
  if_neg (Nat.not_le.2 h)

/-- A larger address ends the step (R106). -/
theorem withAddress_of_ge (h : 32768 ≤ ea.toNat) (k : Nat → Answer) :
    withAddress ea s k = .next (s.raise .memoryAddressOutOfRange) :=
  if_pos h

/-! ### `rmem` -/

/-- An `rmem` whose address names a cell writes its word to the destination (R107). -/
theorem exec_rmem_of_lt {addr : Operand} (d : RegIdx) (ha : s.value addr = some ea) (hlt : ea.toNat < 32768) :
    exec (.rmem (.reg d) addr) s = .next (s.setReg d (s.memRead ea.toNat)) :=
  (withValue_of_some ha _).trans (withAddress_of_lt hlt _)

end

/-! ### The obligations -/

/-- Settles O58: the destination is resolved, then the address, and then the address is compared with 32768. -/
theorem rmemReadsOneWord : Obligations.RmemReadsOneWord := by
  refine fun s dst addr => ⟨rfl, entersAfter_arity (.rmem dst addr), ?_,
    fun hd => withDest_of_none (destOf_of_noRegister hd) _, ?_, ?_⟩
  · rintro d ea rfl ha hlt
    exact ⟨_, exec_rmem_of_lt d ha hlt, s.reg_setReg_same d _, onlyChanges_setReg s d _⟩
  · rintro d rfl ha
    exact withValue_of_none ha _
  · rintro d ea rfl ha hge
    exact (withValue_of_some ha _).trans (withAddress_of_ge hge _)

/-- Settles O59: both operands are resolved before the address is compared with 32768. -/
theorem wmemWritesOneWord : Obligations.WmemWritesOneWord := by
  refine fun s addr val => ⟨rfl, entersAfter_arity (.wmem addr val), fun ea v ha hv hlt hm => ?_,
    fun hnone => withValue_withValue_of_none hnone _, fun ea v ha hv hge => ?_⟩
  · exact ⟨_, exec_wmem_of_lt ha hv hlt, Memory.read_write_same s.mem _ v 0 hm, onlyChanges_memWrite s _ v⟩
  · calc exec (.wmem addr val) s
        _ = withValue val s fun v => withAddress ea s fun a => .next (s.memWrite a v) := withValue_of_some ha _
        _ = withAddress ea s fun a => .next (s.memWrite a v) := withValue_of_some hv _
        _ = .next (s.raise .memoryAddressOutOfRange) := withAddress_of_ge hge _

end Sys2Proof.Machine
end

section
/-! PROOFS. What a step leads to: every step answers a next state (R118), the run states that follow each other
(R124), and `HALTED`, which only a reset leaves (R115). -/

namespace Sys2Proof.Machine

open Sys2Proof.Claims

/-- Settles O18. -/
theorem everyInstructionAndStepAnswersANextState : Obligations.EveryInstructionAndStepAnswersANextState :=
  ⟨exec_total, step_total⟩

/-! ### The run states -/

/-- Only an `in` with a register destination and no code available leads to `WAIT_INPUT` (R83). -/
theorem Effect.waits_of_waitInput {i : Instr} {s t : State} (h : Effect i s t) (hs : s.runState ≠ .waitInput)
    (ht : t.runState = .waitInput) : ∃ d, i = .input (.reg d) ∧ s.termIn = [] := by
  cases h with
  | wait d hi hin => exact ⟨d, hi, hin⟩
  | error | halt | input => cases ht
  | nothing | jump | write | push | pop | call | ret | store | output => exact absurd ht hs

/-- A step that enters `WAIT_INPUT` executes such an `in`. -/
theorem StepEffect.waits_of_waitInput {s t : State} (h : StepEffect s t) (hs : s.runState ≠ .waitInput)
    (ht : t.runState = .waitInput) : ∃ d, NextIs (.input (.reg d)) s ∧ s.termIn = [] := by
  cases h with
  | execute i u hb hi hu =>
    obtain ⟨d, rfl, hin⟩ := hu.waits_of_waitInput (by simp [hb.1]) ht
    exact ⟨d, hi, hin⟩
  | outsideRun | wait => exact absurd ht hs
  | completeInput | stop | noCell | fetchError => cases ht

/-- A step in `WAIT_INPUT` goes on waiting or completes the `in` (R124). -/
theorem waitInput_or_running_of_step {s t : State} (hr : s.runState = .waitInput) (h : step s = .next t) :
    t.runState = .waitInput ∨ t.runState = .running := by
  cases hin : s.termIn with
  | nil => cases (step_of_waiting hr hin).symm.trans h; exact .inl hr
  | cons c rest => cases (step_of_code hr hin).symm.trans h; exact .inr rfl

/-- Outside a run a step changes nothing. -/
theorem eq_of_step_outsideRun {s t : State} (hr : s.runState = .idle ∨ s.runState = .halted)
    (h : step s = .next t) : t = s := by
  cases (step_of_outsideRun hr).symm.trans h
  rfl

/-- Settles O27. -/
theorem runStateTransitions : Obligations.RunStateTransitions := by
  intro s t h
  refine ⟨fun hr => ?_, fun hr => ?_, fun hr => waitInput_or_running_of_step hr h,
    fun hr => (step_effect h).ne_idle (by simp [hr]), fun ht hs => (step_effect h).waits_of_waitInput hs ht⟩
  · rwa [eq_of_step_outsideRun (.inl hr) h]
  · rwa [eq_of_step_outsideRun (.inr hr) h]

/-! ### `HALTED` -/

theorem onlyChanges_stopLevel (s : State) (b : Bool) : OnlyChanges [.stopRequest] s { s with stopRequest := b } := by
  intro p hp
  cases p with
  | stopRequest => simp at hp
  | _ => rfl

theorem onlyChanges_supplyInput (s : State) (codes : List Word) : OnlyChanges [.termIn] s (s.supplyInput codes) := by
  intro p hp
  cases p with
  | termIn => simp at hp
  | _ => rfl

/-- Once the CORE has left `IDLE`, a transaction that is no reset reaches only what is not the CORE's: the stop level
and the terminal's pending codes (R12, R45, R129). -/
theorem onlyChanges_hostAct {s : State} {a : HostAction} (hs : s.runState ≠ .idle) (ha : isReset (.host a) = false) :
    OnlyChanges [.stopRequest, .termIn] s (hostAct a s) := by
  cases a with
  | reset => cases ha
  | load b w =>
    rw [show hostAct (.load b w) s = s from hostLoad_of_ne_idle hs b w]
    exact onlyChanges_mono (onlyChanges_refl s) (by simp)
  | start =>
    obtain ⟨hr, -⟩ | ⟨-, h⟩ := hostStart_cases s
    · exact absurd hr hs
    · rw [show hostAct .start s = s from h]
      exact onlyChanges_mono (onlyChanges_refl s) (by simp)
  | stopLevel b => exact onlyChanges_mono (onlyChanges_stopLevel s b) (by simp)
  | inputCode c => exact onlyChanges_mono (onlyChanges_supplyInput s _) (by simp)
  | inputLine codes => exact onlyChanges_mono (onlyChanges_supplyInput s _) (by simp)

/-- In `HALTED` an event that is no reset changes only what is not the CORE's. -/
theorem event_of_halted {e : Event} {s : State} (hr : s.runState = .halted) (he : isReset e = false) :
    ∃ t, runEvents [e] s = .next t ∧ OnlyChanges [.stopRequest, .termIn] s t := by
  cases e with
  | host a => exact ⟨hostAct a s, rfl, onlyChanges_hostAct (by simp [hr]) he⟩
  | tick =>
    refine ⟨s, ?_, onlyChanges_mono (onlyChanges_refl s) (by simp)⟩
    rw [runEvents, step_of_outsideRun (.inr hr)]
    rfl

/-- After its first event a sequence of events goes on from where that event led. -/
theorem runEvents_cons_of_next {e : Event} {s t : State} (es : List Event) (h : runEvents [e] s = .next t) :
    runEvents (e :: es) s = runEvents es t := by
  cases e with
  | host a => cases h; rfl
  | tick =>
    obtain ⟨u, hu⟩ := step_total s
    rw [runEvents, hu] at h ⊢
    cases h
    rfl

/-- Settles O28, by induction on the events: each leaves the run state, so the next one finds `HALTED` again. -/
theorem haltedIsLeftOnlyByReset : Obligations.HaltedIsLeftOnlyByReset := by
  intro es
  induction es with
  | nil => exact fun s _ _ => ⟨s, rfl, onlyChanges_mono (onlyChanges_refl s) (by simp)⟩
  | cons e es ih =>
    intro s hr hes
    simp only [List.all_cons, Bool.and_eq_true, Bool.not_eq_true'] at hes
    obtain ⟨he, hes⟩ := hes
    obtain ⟨t, ht, hframe⟩ := event_of_halted hr he
    obtain ⟨u, hu, hframe'⟩ := ih t ((hframe .runState (by simp)).trans hr) hes
    exact ⟨u, (runEvents_cons_of_next es ht).trans hu, onlyChanges_trans hframe hframe' (List.Subset.refl _)⟩

end Sys2Proof.Machine
end

section
/-! PROOFS. The errors of a step: the first one in the order of the checks is the one reported (R113), an error has no
other effect and records where it happened (R112), and which instruction can raise which error (R111). -/

namespace Sys2Proof.Machine

open Sys2Proof.Claims

/-! ### An error at a boundary -/

/-- The opcode word of the instruction at the pc stands at the pc. -/
theorem opcodeWord_of_nextIs {s : State} {i : Instr} (hi : NextIs i s) :
    s.pc.toNat < 32768 ∧ i.opcodeWord = Memory.read s.mem s.pc.toNat := by
  obtain ⟨rest, hi⟩ := hi
  have hp : s.pc.toNat < 32768 := by have := (fits_of_decodeAt hi).2; omega
  have hwords := (encodeOfDecodeIsTheWords _ _ _ hi).2
  rw [wordsAt_of_lt hp, encode, List.cons_append] at hwords
  exact ⟨hp, (List.cons.inj hwords).1⟩

/-- A step at a boundary that ends with an error where none was raises it from INSN_PC = pc, with the opcode word
latched if the pc names a cell; what else was latched or written to the pc does not show. -/
theorem StepEffect.raises_of_errCode {s t : State} (h : StepEffect s t) (hb : AtBoundary s) (hs : s.errCode = 0#4)
    (ht : t.errCode ≠ 0#4) :
    ∃ (l : Latches) (e : FatalError), t = (({ s.beginStep with latch := l } : State).raise e).endStep ∧
      (s.pc.toNat < 32768 → l.opFetched = true ∧ l.op = Memory.read s.mem s.pc.toNat) ∧
      (32768 ≤ s.pc.toNat → l.opFetched = false) := by
  obtain ⟨hr, hstop⟩ := hb
  cases h with
  | outsideRun | wait | completeInput => exact absurd hs ht
  | stop _ hs' => simp [hstop] at hs'
  | noCell _ hp => exact ⟨Latches.clear, .fetchOutOfRange, rfl, fun _ => by omega, fun _ => rfl⟩
  | fetchError e _ hp => exact ⟨s.opcodeFetched.latch, e, rfl, fun _ => ⟨rfl, rfl⟩, fun _ => by omega⟩
  | execute i u _ hi hu =>
    obtain ⟨hp, hword⟩ := opcodeWord_of_nextIs hi
    obtain ⟨e, -, rfl⟩ | ⟨he, -⟩ := hu.raises_or_sameStatus
    · exact ⟨(s.fetched i).latch, e, rfl, fun _ => ⟨rfl, hword⟩, fun _ => by omega⟩
    · exact absurd (he.trans hs) ht

/-- Settles O21: `raise` puts the pc back, so that of what a fetch and an error write only the pc is as before. -/
theorem fatalStepHasNoOtherEffect : Obligations.FatalStepHasNoOtherEffect := by
  intro s t hb hs h ht
  obtain ⟨l, e, rfl, hcell, hnone⟩ := (step_effect h).raises_of_errCode hb hs ht
  refine ⟨?_, rfl, rfl, rfl, rfl, fun hp => ?_, fun hp => ?_⟩
  · exact onlyChanges_of_samePart (onlyChanges_mono (onlyChanges_fetchError s l e) (by simp [errorParts]))
      (q := .pc) rfl
  · obtain ⟨hf, hop⟩ := hcell hp
    exact ⟨hf, by simp [hf, hop]⟩
  · have hf := hnone hp
    exact ⟨hf, by simp [hf]⟩

/-! ### The first error -/

/-- The answer is a next state that reports the first of the errors, and none if there is none. -/
def Reports (es : List FatalError) (s : State) (a : Answer) : Prop :=
  ∃ t, a = .next t ∧ t.errCode = (es.head?.map FatalError.code).getD s.errCode ∧ t.stopped = s.stopped

/-- The error of a destination operand, if it names no register (R61). -/
def destErrors (o : Operand) : List FatalError := if (destOf o).isNone then [.invalidRegisterTarget] else []

/-- The error of a value operand, if it has no value (R60). -/
def valueErrors (s : State) (o : Operand) : List FatalError := if (s.value o).isNone then [.invalidOperand] else []

/-- The errors of value operands from left to right, and then the errors of what follows them. -/
def valuesThen (s : State) (os : List Operand) (es : List FatalError) : List FatalError :=
  os.foldr (fun o es => valueErrors s o ++ es) es

theorem filter_map_append_eq_valuesThen (s : State) (os : List Operand) (es : List FatalError) :
    (os.filter (fun o => (s.value o).isNone)).map (fun _ => FatalError.invalidOperand) ++ es = valuesThen s os es := by
  induction os with
  | nil => rfl
  | cons o os ih =>
    rw [valuesThen, List.foldr_cons, ← valuesThen, ← ih, valueErrors]
    cases h : (s.value o).isNone <;> simp [h]

/-- All the errors an instruction could report, in order: those of its operands and then its own (R113). -/
def execErrors (s : State) (i : Instr) : List FatalError := operandErrors s i ++ ownErrors s i

section
variable {s : State} {i : Instr} {a : Answer}

/-- An instruction with a destination resolves it first, and then its values (R62). -/
theorem reports_of_dest {dst : Operand} {vals : List Operand} (ho : i.operands = dst :: vals)
    (h : Reports (destErrors dst ++ valuesThen s vals (ownErrors s i)) s a)
    (hi : i.opcode ∈ destinationOpcodes := by simp [Instr.opcode, destinationOpcodes]) :
    Reports (execErrors s i) s a := by
  have hd : (([dst].filter (fun o => (destOf o).isNone)).map fun _ => FatalError.invalidRegisterTarget) =
      destErrors dst := by
    rw [destErrors]
    cases hn : (destOf dst).isNone <;> simp [hn]
  simp only [execErrors, operandErrors, if_pos hi, ho, List.take_succ_cons, List.take_zero, List.drop_succ_cons,
    List.drop_zero, hd, List.append_assoc, filter_map_append_eq_valuesThen]
  exact h

/-- An instruction without a destination resolves its values (R62). -/
theorem reports_of_noDest (h : Reports (valuesThen s i.operands (ownErrors s i)) s a)
    (hi : i.opcode ∉ destinationOpcodes := by simp [Instr.opcode, destinationOpcodes]) :
    Reports (execErrors s i) s a := by
  simp only [execErrors, operandErrors, if_neg hi, List.filter_nil, List.map_nil, List.nil_append,
    filter_map_append_eq_valuesThen]
  exact h

end

section
variable {s : State} {o : Operand} {es : List FatalError}

theorem reports_next {t : State} (he : t.errCode = s.errCode) (hst : t.stopped = s.stopped) :
    Reports [] s (.next t) := ⟨t, rfl, he, hst⟩

theorem reports_fatal (e : FatalError) (es : List FatalError) (s : State) : Reports (e :: es) s (fatal e s) :=
  ⟨_, rfl, rfl, rfl⟩

/-- A value operand is resolved before what goes on with its value. -/
theorem reports_withValue {k : Word → Answer} (h : ∀ v, s.value o = some v → Reports es s (k v)) :
    Reports (valueErrors s o ++ es) s (withValue o s k) := by
  cases hv : s.value o with
  | none => rw [withValue_of_none hv, valueErrors, hv]; exact reports_fatal _ _ _
  | some v => rw [withValue_of_some hv, valueErrors, hv]; exact h v hv

/-- A destination operand is resolved before what goes on with its register. -/
theorem reports_withDest {k : RegIdx → Answer} (h : ∀ d, Reports es s (k d)) :
    Reports (destErrors o ++ es) s (withDest o s k) := by
  cases hd : destOf o with
  | none => rw [withDest_of_none hd, destErrors, hd]; exact reports_fatal _ _ _
  | some d => rw [withDest, destErrors, hd]; exact h d

/-- An instruction's own check is its last. -/
theorem reports_check {c : Prop} [Decidable c] {e : FatalError} {a : Answer} (hc : c → a = fatal e s)
    (hn : ¬ c → Reports [] s a) : Reports (if c then [e] else []) s a := by
  split
  · rw [hc ‹c›]; exact reports_fatal _ _ _
  · exact hn ‹¬ c›

theorem valueHas_of_some {v : Word} (h : s.value o = some v) (p : Nat → Bool) : valueHas s o p = p v.toNat := by
  rw [valueHas, h]; rfl

theorem reports_withAddress {ea : Word} {k : Nat → Answer} (hv : s.value o = some ea) (h : ∀ a, Reports [] s (k a)) :
    Reports (if valueHas s o (32768 ≤ ·) then [.memoryAddressOutOfRange] else []) s (withAddress ea s k) := by
  rw [valueHas_of_some hv]
  refine reports_check (fun hge => withAddress_of_ge (of_decide_eq_true hge) k) fun hlt => ?_
  rw [withAddress_of_lt (by simpa using hlt)]
  exact h _

theorem reports_withRoom {a : Answer} (h : Reports [] s a) :
    Reports (if s.cfg.stackCapacity = some s.stack.length then [.stackOverflow] else []) s (withRoom s a) :=
  reports_check (fun hfull => withRoom_of_full hfull a) fun hroom => by rwa [withRoom_of_room hroom]

theorem reports_withPop {k : Word → State → Answer} (h : ∀ v rest, Reports [] s (k v (s.setStack rest))) :
    Reports (if s.stack = [] then [.stackUnderflow] else []) s (withPop s k) := by
  refine reports_check (fun hnil => withPop_of_nil hnil k) fun hne => ?_
  obtain ⟨v, rest, hs⟩ := List.exists_cons_of_ne_nil hne
  rw [withPop_of_cons hs]
  exact h v rest

/-- A zero divisor is the one own check of the ALU (R94). -/
theorem reports_divisor {vb : Word} {a : Answer} (hb : s.value o = some vb) (h : Reports [] s a) :
    Reports (if valueHas s o (· = 0) then [.divisionByZero] else []) s
      (if vb = 0#16 then fatal .divisionByZero s else a) := by
  rw [valueHas_of_some hb]
  refine reports_check (fun hz => if_pos ?_) fun hne => ?_
  · exact BitVec.eq_of_toNat_eq (of_decide_eq_true hz)
  · rwa [if_neg fun hz => hne (by simp [hz])]

theorem reports_writeBinary (f : Word → Word → Word) (dst a b : Operand) :
    Reports (destErrors dst ++ valuesThen s [a, b] []) s (writeBinary f dst a b s) :=
  reports_withDest fun _ => reports_withValue fun _ _ => reports_withValue fun _ _ => reports_next rfl rfl

theorem reports_writeUnary (f : Word → Word) (dst a : Operand) :
    Reports (destErrors dst ++ valuesThen s [a] []) s (writeUnary f dst a s) :=
  reports_withDest fun _ => reports_withValue fun _ _ => reports_next rfl rfl

theorem reports_jumpWhen (taken : Word → Bool) (cond target : Operand) :
    Reports (valuesThen s [cond, target] []) s (jumpWhen taken cond target s) :=
  reports_withValue fun c _ => reports_withValue fun _ _ => by cases h : taken c <;> exact reports_next rfl rfl

/-- Whether or not a code is available, an `in` records nothing. -/
theorem reports_tryInput (d : RegIdx) : Reports [] s (.next (s.beginWait d).tryInput) := by
  unfold State.tryInput
  split <;> exact reports_next rfl rfl

end

/-- An instruction reports the first error in the order of the checks: its operands from left to right and then its
own check (R113 items 5 and 6). -/
theorem reports_exec (i : Instr) (s : State) : Reports (execErrors s i) s (exec i s) := by
  cases i with
  | halt => exact reports_of_noDest (reports_next rfl rfl)
  | set dst val => exact reports_of_dest rfl (reports_writeUnary _ dst val)
  | push val => exact reports_of_noDest (reports_withValue fun _ _ => reports_withRoom (reports_next rfl rfl))
  | pop dst => exact reports_of_dest rfl (reports_withDest fun _ => reports_withPop fun _ _ => reports_next rfl rfl)
  | eq dst a b => exact reports_of_dest rfl (reports_writeBinary _ dst a b)
  | gt dst a b => exact reports_of_dest rfl (reports_writeBinary _ dst a b)
  | jmp target => exact reports_of_noDest (reports_withValue fun _ _ => reports_next rfl rfl)
  | jt cond target => exact reports_of_noDest (reports_jumpWhen _ cond target)
  | jf cond target => exact reports_of_noDest (reports_jumpWhen _ cond target)
  | add dst a b => exact reports_of_dest rfl (reports_writeBinary _ dst a b)
  | mult dst a b => exact reports_of_dest rfl (reports_writeBinary _ dst a b)
  | mod dst a b =>
    exact reports_of_dest rfl (reports_withDest fun _ => reports_withValue fun _ _ => reports_withValue fun _ hb =>
      reports_divisor hb (reports_next rfl rfl))
  | and dst a b => exact reports_of_dest rfl (reports_writeBinary _ dst a b)
  | or dst a b => exact reports_of_dest rfl (reports_writeBinary _ dst a b)
  | not dst a => exact reports_of_dest rfl (reports_writeUnary _ dst a)
  | rmem dst addr =>
    exact reports_of_dest rfl (reports_withDest fun _ => reports_withValue fun _ ha => reports_withAddress ha fun _ =>
      reports_next rfl rfl)
  | wmem addr val =>
    exact reports_of_noDest (reports_withValue fun _ ha => reports_withValue fun _ _ => reports_withAddress ha fun _ =>
      reports_next rfl rfl)
  | call target => exact reports_of_noDest (reports_withValue fun _ _ => reports_withRoom (reports_next rfl rfl))
  | ret => exact reports_of_noDest (reports_withPop (k := fun v t => .next (t.setPc v)) fun _ _ => reports_next rfl rfl)
  | out val => exact reports_of_noDest (reports_withValue fun _ _ => reports_next rfl rfl)
  | input dst => exact reports_of_dest rfl (reports_withDest fun d => reports_tryInput d)
  | noop => exact reports_of_noDest (reports_next rfl rfl)

theorem valueHas_fetched (s : State) (i : Instr) (o : Operand) (p : Nat → Bool) :
    valueHas (s.fetched i) o p = valueHas s o p := by
  rw [valueHas, State.value_fetched, valueHas]

/-- Fetching an instruction's words changes none of what its checks look at. -/
theorem execErrors_fetched (s : State) (i : Instr) : execErrors (s.fetched i) i = execErrors s i := by
  have hown : ownErrors (s.fetched i) i = ownErrors s i := by
    cases i with
    | mod | rmem | wmem => rw [ownErrors, valueHas_fetched]; rfl
    | _ => rfl
  simp only [execErrors, hown, operandErrors, State.value_fetched]

/-- A step at a boundary reports the first error in the order of the checks. -/
theorem reports_step {s : State} (hb : AtBoundary s) : Reports (stepErrors s) s (step s) := by
  obtain ⟨i, ⟨rest, hd⟩, hstep⟩ | ⟨-, hd, hstep⟩ | ⟨-, hd, hstep⟩ | ⟨-, hd, hstep⟩ := step_atBoundary_cases hb
  · obtain ⟨u, hu, he, hst⟩ := reports_exec i (s.fetched i)
    rw [execErrors_fetched] at he
    rw [hstep, hu, stepErrors, hd]
    exact ⟨u.endStep, rfl, he, hst⟩
  all_goals
    rw [hstep, stepErrors, hd]
    exact ⟨_, rfl, rfl, rfl⟩

/-- Settles O23: a stop request is honoured before any check, and without one the step reports the first error. -/
theorem firstErrorInOrderIsReported : Obligations.FirstErrorInOrderIsReported := by
  refine fun s hr hs => ⟨fun hstop => ⟨s.stopRun, step_of_stopRequest hr hstop, hs, rfl⟩, fun hstop => ?_⟩
  obtain ⟨t, ht, he, hst⟩ := reports_step ⟨hr, hstop⟩
  exact ⟨t, ht, hst, hs ▸ he⟩

/-! ### Which instruction can raise which error -/

/-- A code says which error it is: the codes number the errors from 1 on (R110). -/
theorem FatalError.getElem?_code (e : FatalError) :
    [FatalError.invalidOpcode, .invalidOperand, .invalidRegisterTarget, .stackUnderflow, .divisionByZero,
      .fetchOutOfRange, .memoryAddressOutOfRange, .stackOverflow][e.code.toNat - 1]? = some e := by
  cases e <;> rfl

theorem FatalError.code_injective {e e' : FatalError} (h : e.code = e'.code) : e = e' :=
  Option.some.inj (by rw [← e.getElem?_code, h, e'.getElem?_code])

/-- An example of a state in which an opcode raises the error: every register holds an address past memory, and the
stack is full for an overflow and empty otherwise. -/
def raisingState (e : FatalError) : State :=
  { State.resetWith { stackCapacity := some 1 } with
    regs := Vector.replicate 8 32768#16
    stack := if e = .stackOverflow then [0#16] else [] }

/-- Operand words with which an opcode raises the error in that state: a literal destination, a value word of the
invalid class, a zero divisor; for the other errors r0 serves as every operand. -/
def raisingWords (code : Nat) : FatalError → Word × Word
  | .invalidRegisterTarget => (0#16, 0#16)
  | .invalidOperand => (if code ∈ destinationOpcodes then 32768#16 else 32776#16, 32776#16)
  | .divisionByZero => (32768#16, 0#16)
  | .invalidOpcode | .stackUnderflow | .fetchOutOfRange | .memoryAddressOutOfRange | .stackOverflow =>
    (32768#16, 32768#16)

/-- The opcode with these operand words is an instruction whose first failing check in that state is the error. -/
def raisesAsExample (code : Nat) (e : FatalError) : Bool :=
  (decodeInstr code (raisingWords code e).1 (raisingWords code e).2 (raisingWords code e).2).any fun i =>
    i.opcode = code ∧ (execErrors (raisingState e) i).head? = some e

theorem raisesAsExample_of_raisable :
    ∀ code < 22, ∀ e ∈ raisable code, raisesAsExample code e = true := by decide

/-- Settles O22: every error an instruction raises is in its row of the table (`Effect`), and for every entry of the
table there is an instruction whose first failing check is that error (R113). -/
theorem instructionsRaiseExactlyTheirErrors : Obligations.InstructionsRaiseExactlyTheirErrors := by
  refine fun code e hcode => ⟨fun he => ?_, ?_⟩
  · obtain ⟨i, -, hi⟩ := (Option.any_eq_true _ _).1 (raisesAsExample_of_raisable code hcode e he)
    obtain ⟨hop, hhead⟩ := of_decide_eq_true hi
    obtain ⟨t, ht, herr, -⟩ := reports_exec i (raisingState e)
    exact ⟨i, raisingState e, t, hop, rfl, ht, by rw [herr, hhead]; rfl⟩
  · rintro ⟨i, s, t, rfl, hs, h, ht⟩
    obtain ⟨e', he', rfl⟩ | ⟨herr, -⟩ := (exec_effect h).raises_or_sameStatus
    · rwa [← FatalError.code_injective ht]
    · exact absurd (ht.symm.trans (herr.trans hs)) e.code_ne_zero

end Sys2Proof.Machine
end

section
/-! PROOFS. The transactions of the outside (R45, R129): they keep the invariant (R130), and a start begins a run. -/

namespace Sys2Proof.Machine

open Sys2Proof.Claims

/-- Settles O31: each transaction keeps the invariant. -/
theorem hostActionsKeepInvariant : Obligations.HostActionsKeepInvariant := fun a _ hs => hostAct_inv hs a

theorem onlyChanges_startRun (s : State) : OnlyChanges [.haltedFlag, .runState] s s.startRun := by
  intro p hp
  cases p with
  | haltedFlag | runState => simp at hp
  | _ => rfl

/-- Settles O4: a start that is performed leaves the CORE running at the same pc, where a step fetches (R66, R69). -/
theorem startIsPerformedOnlyInIdle : Obligations.StartIsPerformedOnlyInIdle := by
  intro s
  obtain ⟨hr, h⟩ | ⟨hr, h⟩ := hostStart_cases s
  · refine ⟨fun _ => ?_, fun hne => absurd hr hne⟩
    obtain ⟨-, -, -, hfetch⟩ := nothingHappensOutsideARun s.startRun
    rw [show hostAct .start s = s.startRun from h]
    exact ⟨rfl, rfl, onlyChanges_startRun s, fun hstop => hfetch ⟨rfl, hstop⟩⟩
  · exact ⟨fun hidle => absurd hidle hr, fun _ => h⟩

end Sys2Proof.Machine
end
